-- ==== Sys2Proof/Word.lean ====
section
/-! DEFINITION. The widths of the block's values (00_scope.md R5, R6, R7; 10_state.md R14, R15).
Every value on a port is a bit vector whose bit `i` has weight 2^i, read as unsigned. -/

namespace Sys2Proof

/-- The operation select `op[2:0]` (R14, R31). -/
abbrev OpSel := BitVec 3

/-- A 64-bit port: operand A and the result `r` (R14, R15). -/
abbrev Word64 := BitVec 64

/-- The 32-bit port `b` (R14), and a Dilated Value or a Morton Code (R5). -/
abbrev Code := BitVec 32

/-- An Axis Coordinate (R5, glossary). -/
abbrev Coord := BitVec 16

/-- A Normalized Key as a binary64 pattern (R5, R51). -/
abbrev Key := BitVec 64

/-- The status port `st[1:0]` (R15). -/
abbrev StatusBits := BitVec 2

end Sys2Proof
end

