-- ==== Sys2Proof/Machine/Operands.lean ====
section
/-! DEFINITION. Operand assembly (30_encoding.md R33; 20_memory.md R21): which slice of a port an operation reads, and how a
narrower result is put on `r`. Every slice is unsigned; the bits above it are ignored; the bits of `r` above the
driven slice are 0. -/

namespace Sys2Proof.Machine

/-- `a[15:0]`: DILATE's `v` and ENCODE's `x` (R33). -/
def coordOfA (a : Word64) : Coord := a.extractLsb' 0 16

/-- `b[15:0]`: ENCODE's `y` (R33). -/
def coordOfB (b : Code) : Coord := b.extractLsb' 0 16

/-- `a[31:0]`: the operand of CONTRACT, NORM and DECODE, and COMBINE's `dx` (R33). -/
def codeOfA (a : Word64) : Code := a.extractLsb' 0 32

/-- `b[31:0]`: COMBINE's `dy` (R33). -/
def codeOfB (b : Code) : Code := b

/-- `a[63:0]`: DENORM's key (R33). -/
def keyOfA (a : Word64) : Key := a

/-- `zext_64` of a 32-bit result (00_scope.md §5). -/
def zextCode (c : Code) : Word64 := c.setWidth 64

/-- `zext_64` of a 16-bit result (00_scope.md §5). -/
def zextCoord (c : Coord) : Word64 := c.setWidth 64

/-- `zext_64({y, x})`: DECODE's pair, `x` in `r[15:0]` and `y` in `r[31:16]` (R33, R49, D13). -/
def packPair (x y : Coord) : Word64 := zextCode (y ++ x)

end Sys2Proof.Machine
end

