-- ==== Sys2Proof/Machine/Flags.lean ====
section
/-! DEFINITION. The status codes and their causes (60_exceptions.md R60). The block has no flags and no condition codes
(10_state.md R12): `st` belongs to the request on the ports and is never sticky. -/

namespace Sys2Proof.Machine

/-- The three statuses a request can have (R60). 11 is never produced (U9). -/
inductive Status where
  | ok
  | illegalOp
  | keyDomain
  deriving DecidableEq, Repr

/-- The code of a status on `st[1:0]` (R15, R60). -/
def Status.code : Status → StatusBits
  | .ok        => 0b00#2
  | .illegalOp => 0b01#2
  | .keyDomain => 0b10#2

/-- What can be raised (R60): the reserved encoding (R61) and a key outside DENORM's domain (R62). -/
inductive Cause where
  | illegalOp
  | keyDomain
  deriving DecidableEq, Repr

/-- The status a cause is reported by (R60). -/
def Cause.status : Cause → Status
  | .illegalOp => .illegalOp
  | .keyDomain => .keyDomain

end Sys2Proof.Machine
end

