-- ==== Sys2Proof/Config.lean ====
section
/-! DEFINITION. The fixed parameters (00_scope.md R5) and the values the spec leaves open, as constants with no body.
The widths of R5 are the types of Word.lean; `N_AXES` = 2 shows as the pair x, y of Machine/Codec.lean. -/

namespace Sys2Proof.Config

/-- `M_EVEN`, the even-position mask (R5). -/
def mEven : Code := 0x55555555#32

/-- `D`, the normalization divisor 2^32 - 1 (R5). -/
def divisor : Nat := 4294967295

/-- `T_SETTLE` less one unit of time. Open (R75, D20, U11). -/
opaque settleExtra : Nat

/-- `T_SETTLE` in whole units of time, at least one: DESIGN CHOICE, entry 6 (unsafe for a block that settles in no time at all). -/
def tSettle : Nat := settleExtra + 1

/-- What `r` shows at the n-th moment inside a settle window: any value (R73, R75, U10), a free value, entry 5.
Which value it is cannot be proved. That it depends on `n` alone is a DESIGN CHOICE, entry 5 (unsafe for a claim that
compares unsettled outputs): two instances, two power-ups or two windows at equal counters show the same value, where R26,
R72 and R75 let each be any. -/
opaque unsettledR : Nat → Word64

/-- What `st` shows at the n-th moment inside a settle window: any value, 11 included (R75, U10), a free value, entry 5.
That it depends on `n` alone is the same DESIGN CHOICE as for `unsettledR`, entry 5 (unsafe for a claim that compares unsettled
outputs). -/
opaque unsettledSt : Nat → StatusBits

/-- Whether f64 of the real `num / den` takes the upper one of two equally near patterns. R37 says only "nearest": a free value, entry 11.
That the choice is one of `num` and `den` and not of the sign is a DESIGN CHOICE, entry 11. -/
opaque f64TieUp : Nat → Nat → Bool

/-- The pattern f64 gives a real of magnitude `num / den`, negative or not, that rounds beyond the largest finite value. R37 does
not say: a free value, its sign bit too, entry 11 (safe). -/
opaque f64Overflow : Bool → Nat → Nat → Key

end Sys2Proof.Config
end

