-- ==== Sys2Proof/Syntax.lean ====
section
/-! DEFINITION. The eight rows of the opcode map (30_encoding.md R32), a request and its answer at the ports
(10_state.md R14, R15, R16), and the abstract syntax of the assembler (30_encoding.md R37). -/

namespace Sys2Proof

/-- One constructor per row of the opcode map (R32). No constructor has an argument: operands are whole port values,
not fields of an instruction word (R31). -/
inductive Instr where
  | dilate     -- 000, R41
  | contract   -- 001, R44
  | combine    -- 010, R46
  | norm       -- 011, R52
  | encode     -- 100, R47
  | decode     -- 101, R49
  | denorm     -- 110, R55
  | rsvd7      -- 111, the reserved encoding, R34, R61
  deriving DecidableEq, Repr

/-- The inputs of one request (R14, R31). -/
structure Request where
  op : OpSel
  a  : Word64
  b  : Code
  deriving DecidableEq, Repr

/-- The outputs of one request (R15). -/
structure Response where
  r  : Word64
  st : StatusBits
  deriving DecidableEq, Repr

/-- The operand names of the assembler: the two operand ports (R37). -/
inductive Port where
  | a
  | b
  deriving DecidableEq, Repr

/-- A decimal real: `digits * 10^(-scale)`, negated when `negative` (R37 `decimal-real`). -/
structure DecimalReal where
  negative : Bool
  digits   : Nat
  scale    : Nat
  deriving DecidableEq, Repr

/-- The four forms of an operand's value (R37 `value`). -/
inductive Value where
  | decimal  (n : Nat)
  | hex      (n : Nat)
  | f64      (q : DecimalReal)
  | hostName (name : String)
  deriving DecidableEq, Repr

/-- One assembler request: a mnemonic and its operands in the order written (R37 `request`). -/
structure AsmRequest where
  mnemonic : Instr
  operands : List (Port × Value)
  deriving DecidableEq, Repr

/-- One line of a program: a request, with the host name that keeps its `r` where the line is a binding (R37 `binding`). -/
structure AsmLine where
  binding : Option String
  request : AsmRequest
  deriving DecidableEq, Repr

end Sys2Proof
end

