-- ==== Sys2Proof/Machine/State.lean ====
section
/-! DEFINITION. What a state of the model holds. The block itself has no architectural state (10_state.md R8 to R18):
the record holds the values on the ports of one instance, the settle window of those ports, and the host's side of the
interface (entry 1). -/

namespace Sys2Proof.Machine

/-- Ports, settle window and host of one instance. -/
structure State where
  /-- Input port `op[2:0]` (R14). -/
  op : OpSel
  /-- Input port `a[63:0]` (R14). -/
  a : Word64
  /-- Input port `b[31:0]` (R14). -/
  b : Code
  /-- Output port `r[63:0]` as it stands now (R15). -/
  r : Word64
  /-- Output port `st[1:0]` as it stands now (R15). Inside a settle window it may show 11 (R75). -/
  st : StatusBits
  /-- Units of time the inputs must still be held before the outputs are settled; 0 when they are (R75, R76). -/
  window : Nat
  /-- The model's own counter of free output values (entry 5). -/
  draws : Nat
  /-- The host's requests not yet presented, the next one first (R79). -/
  pending : List Request
  /-- What the host has sampled, the first sample first (R79). -/
  samples : List Response
  deriving DecidableEq, Repr

/-- No fault exists: `F` is total (R16), there is no trap (R66), and both error conditions are answers of the block, which
goes on (R60 to R64). Nothing raises a fault; safe. -/
inductive Fault where
  deriving DecidableEq, Repr

/-- The one refusal the interface asks for. -/
inductive Refusal where
  /-- Raised by an arm of exec whose instruction has no meaning yet. No arm raises it: all eight have one. Safe. -/
  | notModelled (mnemonic : String)
  deriving DecidableEq, Repr

/-- The inputs now on the ports, as one request (R16). -/
def State.request (s : State) : Request := ⟨s.op, s.a, s.b⟩

/-- The outputs now on the ports. -/
def State.outputs (s : State) : Response := ⟨s.r, s.st⟩

/-- Power-up. There is no reset (R73) and nothing to reset (R18). The outputs are any value, so free values, until the
inputs have been held for `T_SETTLE`. The inputs are the host's; the model puts 0 on them (DESIGN CHOICE, entry 4,
unsafe). The host has issued and sampled nothing (entry 8). Two instances at power-up are
one State, so they show the same free outputs (DESIGN CHOICE, entry 5). -/
def State.reset : State where
  op := 0
  a := 0
  b := 0
  r := Config.unsettledR 0
  st := Config.unsettledSt 0
  window := Config.tSettle
  draws := 1
  pending := []
  samples := []

end Sys2Proof.Machine
end

