-- ==== Sys2Proof/Machine/Ops.lean ====
section
/-! DEFINITION. The named operations on ports: answering, raising, driving the inputs, presenting the next request, sampling.
There is no memory and no register, so there is nothing else to operate on (10_state.md R8; 20_memory.md R19). -/

namespace Sys2Proof.Machine

/-- `r <- v; st <- OK`: the operation completed (R60). -/
def answerOk (v : Word64) : Response := ⟨v, Status.ok.code⟩

/-- `raise`: `r <- 0` together with the cause's status (R63; 00_scope.md §5). This is all that an exception does: nothing is
saved, no mode changes, control goes nowhere (R66). There is no return from one (R67). -/
def raise (c : Cause) : Response := ⟨0, c.status.code⟩

/-- Whether the inputs of a request differ from those on the ports: only a change starts a new settle window (R76). -/
def State.sameInputs (s : State) (q : Request) : Bool := decide (s.request = q)

/-- The host puts a request on the input ports. A change to any input starts a new settle window, in which the outputs are
any value (R75, R76); inputs driven to what they were are no change (DEDUCED, entry 10). The free values are those of the
counter `draws` alone, whatever the request and the instance: DESIGN CHOICE, entry 5 (unsafe for a claim that compares
unsettled outputs). -/
def State.drive (s : State) (q : Request) : State :=
  if s.sameInputs q then s
  else
    { s with
      op := q.op, a := q.a, b := q.b
      r := Config.unsettledR s.draws, st := Config.unsettledSt s.draws
      window := Config.tSettle, draws := s.draws + 1 }

/-- The outputs settle to an answer for the inputs on the ports: the window is over (R75). -/
def State.answer (s : State) (x : Response) : State := { s with r := x.r, st := x.st, window := 0 }

/-- The host reads the outputs as they stand and keeps them (R76, R79). -/
def State.sample (s : State) : State := { s with samples := s.samples ++ [s.outputs] }

/-- The host adds a request at the end of its sequence (R79). -/
def State.issue (s : State) (q : Request) : State := { s with pending := s.pending ++ [q] }

/-- The host presents its next request (R76, R79). When it has none waiting, the request on the ports stays there and is the
one the next step completes (DESIGN CHOICE, entry 3). -/
def State.presentNext (s : State) : State :=
  match s.pending with
  | []      => s
  | q :: qs => { s with pending := qs }.drive q

end Sys2Proof.Machine
end

