-- ==== Sys2Proof/Machine/Interleaver.lean ====
section
/-! DEFINITION. The Bit Interleaver family: DILATE and CONTRACT (40_interleaver.md R39 to R45). The bit mappings are the
definitions; the ladders of R40 and R43 are the source's equivalent form. -/

namespace Sys2Proof.Machine

/-- `r[i] := v` on a value of any width. -/
def assignBit {n : Nat} (r : BitVec n) (i : Nat) (v : Bool) : BitVec n :=
  if v then r ||| BitVec.twoPow n i else r &&& ~~~ BitVec.twoPow n i

/-- The loop of R39 for the first `n` values of `k`. -/
def scatterBits (v : Coord) : Nat → Code
  | 0     => 0
  | k + 1 => assignBit (assignBit (scatterBits v k) (2 * k) (v.getLsbD k)) (2 * k + 1) false

/-- `dilate16`: bit `k` goes to bit `2k`, every odd bit is 0 (R39). -/
def dilate16 (v : Coord) : Code := scatterBits v 16

/-- The loop of R42 for the first `n` values of `k`. -/
def gatherBits (v : Code) : Nat → Coord
  | 0     => 0
  | k + 1 => assignBit (gatherBits v k) k (v.getLsbD (2 * k))

/-- `contract32`: the odd bits are masked out, then bit `2k` goes to bit `k` (R42). -/
def contract32 (v : Code) : Coord := gatherBits (v &&& Config.mEven) 16

/-- The source's spread-bits ladder for `dilate16` (R40). Its masks are general knowledge (I2). -/
def dilateLadder (v16 : Coord) : Code :=
  let v0 : Code := v16.setWidth 32
  let v1 := (v0 ||| (v0 <<< 8)) &&& 0x00FF00FF#32
  let v2 := (v1 ||| (v1 <<< 4)) &&& 0x0F0F0F0F#32
  let v3 := (v2 ||| (v2 <<< 2)) &&& 0x33333333#32
  (v3 ||| (v3 <<< 1)) &&& 0x55555555#32

/-- The source's mirrored ladder for `contract32` (R43). Its masks are general knowledge (I2). -/
def contractLadder (v32 : Code) : Coord :=
  let v0 := v32 &&& 0x55555555#32
  let v1 := (v0 ||| (v0 >>> 1)) &&& 0x33333333#32
  let v2 := (v1 ||| (v1 >>> 2)) &&& 0x0F0F0F0F#32
  let v3 := (v2 ||| (v2 >>> 4)) &&& 0x00FF00FF#32
  let v4 := (v3 ||| (v3 >>> 8)) &&& 0x0000FFFF#32
  v4.setWidth 16

/-- DILATE's answer (R41). -/
def dilateAnswer (a : Word64) : Response := answerOk (zextCode (dilate16 (coordOfA a)))

/-- CONTRACT's answer (R44). -/
def contractAnswer (a : Word64) : Response := answerOk (zextCoord (contract32 (codeOfA a)))

/-- DILATE (R41). -/
def execDilate (s : State) : Host.Outcome State Fault Refusal := .next (s.answer (dilateAnswer s.a))

/-- CONTRACT (R44). -/
def execContract (s : State) : Host.Outcome State Fault Refusal := .next (s.answer (contractAnswer s.a))

end Sys2Proof.Machine
end

