-- ==== Sys2Proof/Machine/Codec.lean ====
section
/-! DEFINITION. The integer part of the Locality Codec family: COMBINE, ENCODE, DECODE (41_codec.md R46 to R50). -/

namespace Sys2Proof.Machine

/-- `((dy << 1) mod 2^32) | dx`. The operands are neither checked nor masked, and `dy[31]` is lost (R46, D12). -/
def mortonCombine (dx dy : Code) : Code := (dy <<< 1) ||| dx

/-- `encode(x, y)`: `x` in the even bits, `y` in the odd bits (R47). -/
def mortonEncode (x y : Coord) : Code := (dilate16 y <<< 1) ||| dilate16 x

/-- The `x` of `decode(code)` (R49). The mask is redundant and kept as the source writes it. -/
def mortonX (c : Code) : Coord := contract32 (c &&& Config.mEven)

/-- The `y` of `decode(code)` (R49). -/
def mortonY (c : Code) : Coord := contract32 ((c >>> 1) &&& Config.mEven)

/-- COMBINE's answer (R46). -/
def combineAnswer (a : Word64) (b : Code) : Response := answerOk (zextCode (mortonCombine (codeOfA a) (codeOfB b)))

/-- ENCODE's answer (R47). -/
def encodeAnswer (a : Word64) (b : Code) : Response := answerOk (zextCode (mortonEncode (coordOfA a) (coordOfB b)))

/-- DECODE's answer (R49). -/
def decodeAnswer (a : Word64) : Response := answerOk (packPair (mortonX (codeOfA a)) (mortonY (codeOfA a)))

/-- COMBINE (R46). -/
def execCombine (s : State) : Host.Outcome State Fault Refusal := .next (s.answer (combineAnswer s.a s.b))

/-- ENCODE (R47). -/
def execEncode (s : State) : Host.Outcome State Fault Refusal := .next (s.answer (encodeAnswer s.a s.b))

/-- DECODE (R49). -/
def execDecode (s : State) : Host.Outcome State Fault Refusal := .next (s.answer (decodeAnswer s.a))

end Sys2Proof.Machine
end

