-- ==== Sys2Proof/Machine/Binary64.lean ====
section
/-! DEFINITION. The key format (42_normalizer.md R51): the fields of a binary64 pattern, the pattern of three fields, the value
of a pattern, and the pattern nearest to a real, which the assembler's `f64(q)` needs (30_encoding.md R37). -/

namespace Sys2Proof.Machine

/-- `s = K[63]` (R51). -/
def keySign (K : Key) : BitVec 1 := K.extractLsb' 63 1

/-- `E = K[62:52]` (R51). -/
def keyExponent (K : Key) : BitVec 11 := K.extractLsb' 52 11

/-- `F = K[51:0]` (R51). -/
def keyFraction (K : Key) : BitVec 52 := K.extractLsb' 0 52

/-- `bin64(s, E, F)`, the pattern `{s, E, F}` (00_scope.md §5, R51). -/
def bin64 (s : BitVec 1) (E : BitVec 11) (F : BitVec 52) : Key := s ++ E ++ F

/-- What a pattern stands for (the table of R51). -/
inductive KeyValue where
  | zero (negative : Bool)
  | nonzero (v : ℚ)
  | infinity (negative : Bool)
  | nan
  deriving DecidableEq

/-- The factor `(-1)^s`. -/
def signFactor (s : BitVec 1) : ℚ := if s = 0 then 1 else -1

/-- The value of a pattern, row by row of the table of R51. -/
def keyValue (K : Key) : KeyValue :=
  let E := (keyExponent K).toNat
  let F := (keyFraction K).toNat
  if E = 2047 then
    if F = 0 then .infinity (keySign K == 1) else .nan
  else if E = 0 then
    if F = 0 then .zero (keySign K == 1)
    else .nonzero (signFactor (keySign K) * F / 2 ^ 1074)
  else .nonzero (signFactor (keySign K) * (2 ^ 52 + F) * 2 ^ E / 2 ^ 1075)

/-- The real a finite pattern stands for; none for an infinity or a NaN. Both zeros stand for 0. -/
def KeyValue.real : KeyValue → Option ℚ
  | .zero _     => some 0
  | .nonzero v  => some v
  | .infinity _ => none
  | .nan        => none

/-- The real that a pattern stands for, where it is finite (R51). -/
def keyReal (K : Key) : Option ℚ := (keyValue K).real

/-- The pattern nearest to the real `num / den`, as a natural number (R37 `f64(q)`), for `den` above 0. The quotient is scaled by
2^1074, the weight of the smallest subnormal; `t` is the number of low bits a 53-bit significand drops of it. The
significand counts its own top bit, so adding it to `t * 2^52` makes the exponent field, a carry included.
Of two equally near patterns of different value either may be taken: a free value (entry 11). -/
def nearestMagnitude (num den : Nat) : Nat :=
  let n := num * 2 ^ 1074
  let t := Nat.log2 (n / den) - 52
  let unit := den * 2 ^ t
  let m := n / unit
  let rem := n % unit
  let m' := if 2 * rem > unit ∨ (2 * rem = unit ∧ Config.f64TieUp num den = true) then m + 1 else m
  t * 2 ^ 52 + m'

/-- `f64` of the real `num / den`, negated when `negative`. A real that rounds beyond the largest finite value has no pattern
that R37 fixes: a free value (entry 11). Where the nearest value is zero, +0.0 and −0.0 are equally near and R37 is silent: the
pattern takes the sign that is written, −0.0 for every negative `q` that rounds to zero, nonzero or not, and +0.0 for every
other. DESIGN CHOICE, entry 11 (unsafe for that sign bit). -/
def f64Pattern (negative : Bool) (num den : Nat) : Key :=
  let p := nearestMagnitude num den
  if p < 2047 * 2 ^ 52 then
    if negative then BitVec.ofNat 64 p ||| 0x8000000000000000#64 else BitVec.ofNat 64 p
  else Config.f64Overflow negative num den

end Sys2Proof.Machine
end

