-- ==== Sys2Proof/Machine/Normalizer.lean ====
section
/-! DEFINITION. The normalization part of the Locality Codec family: NORM and DENORM (42_normalizer.md R52 to R59). Integer
arithmetic only; there is no rounding mode, no flag and no NaN payload (R58). -/

namespace Sys2Proof.Machine

/-- The rounded significand of `c / D` for `floor_log2(c) = k`: the nearest integer to `c * 2^(84-k) / D` (R52). -/
def normSignificand (c k : Nat) : Nat :=
  let m := c * 2 ^ (84 - k) / Config.divisor
  let rem := c * 2 ^ (84 - k) % Config.divisor
  if 2 * rem > Config.divisor then m + 1 else m

/-- `normalize(code)`: the binary64 value nearest to `c / D` (R52). -/
def normKey (c : Code) : Key :=
  if c.toNat = 0 then 0x0000000000000000#64
  else if c.toNat = Config.divisor then 0x3FF0000000000000#64
  else
    let k := Nat.log2 c.toNat
    bin64 0 (BitVec.ofNat 11 (k + 1023 - 32)) (BitVec.ofNat 52 (normSignificand c.toNat k - 2 ^ 52))

/-- The keys DENORM accepts, as a test on the pattern read as unsigned (R54, D11). -/
def keyAccepted (K : Key) : Bool :=
  decide (K.toNat ≤ 0x3FF0000000000000) || K == 0x8000000000000000#64

/-- `M` of R55: the significand of an accepted key as an integer. -/
def keySignificand (K : Key) : Nat :=
  if (keyExponent K).toNat = 0 then (keyFraction K).toNat else 2 ^ 52 + (keyFraction K).toNat

/-- `sh` of R55: the key's value is `M / 2^sh`. -/
def keyShift (K : Key) : Nat :=
  if (keyExponent K).toNat = 0 then 1074 else 1075 - (keyExponent K).toNat

/-- The integer nearest to `p / 2^sh`, ties to even (R55, D10). -/
def roundShift (p sh : Nat) : Nat :=
  let q := p / 2 ^ sh
  let rem := p % 2 ^ sh
  let half := 2 ^ (sh - 1)
  if rem > half ∨ (rem = half ∧ q % 2 = 1) then q + 1 else q

/-- `denormalize(key)` for an accepted key: the exact product with `D`, rounded (R55, D10). -/
def denormCode (K : Key) : Code := BitVec.ofNat 32 (roundShift (keySignificand K * Config.divisor) (keyShift K))

/-- NORM's answer (R52). -/
def normAnswer (a : Word64) : Response := answerOk (normKey (codeOfA a))

/-- DENORM's answer: KEY_DOMAIN on a key that R54 refuses (R55, R62). -/
def denormAnswer (a : Word64) : Response :=
  if keyAccepted (keyOfA a) then answerOk (zextCode (denormCode (keyOfA a))) else raise .keyDomain

/-- NORM (R52). -/
def execNorm (s : State) : Host.Outcome State Fault Refusal := .next (s.answer (normAnswer s.a))

/-- DENORM (R55). -/
def execDenorm (s : State) : Host.Outcome State Fault Refusal := .next (s.answer (denormAnswer s.a))

end Sys2Proof.Machine
end

