-- ==== Sys2Proof/Machine/Reserved.lean ====
section
/-! DEFINITION. The reserved encoding op = 111 (30_encoding.md R34; 60_exceptions.md R61). -/

namespace Sys2Proof.Machine

/-- RSVD7's answer: ILLEGAL_OP, whatever the operands (R61, R65). -/
def rsvd7Answer : Response := raise .illegalOp

/-- RSVD7 (R61). -/
def execRsvd7 (s : State) : Host.Outcome State Fault Refusal := .next (s.answer rsvd7Answer)

end Sys2Proof.Machine
end

