-- ==== Sys2Proof/Machine/Dispatch.lean ====
section
/-! DEFINITION. One arm per operation (30_encoding.md R32). -/

namespace Sys2Proof.Machine

def exec (i : Instr) (s : State) : Host.Outcome State Fault Refusal :=
  match i with
  | .dilate => Sys2Proof.Machine.execDilate s
  | .contract => Sys2Proof.Machine.execContract s
  | .combine => Sys2Proof.Machine.execCombine s
  | .norm => Sys2Proof.Machine.execNorm s
  | .encode => Sys2Proof.Machine.execEncode s
  | .decode => Sys2Proof.Machine.execDecode s
  | .denorm => Sys2Proof.Machine.execDenorm s
  | .rsvd7 => Sys2Proof.Machine.execRsvd7 s

end Sys2Proof.Machine
end

