-- ==== Sys2Proof/Decode.lean ====
section
/-! DEFINITION. The opcode map in both directions (30_encoding.md R31, R32, R34), and the mnemonics' spelling (R37).
The only encoded field is `op[2:0]` and every value of it is decoded, the reserved 111 to its own constructor, so the
decoder never refuses. -/

namespace Sys2Proof

/-- The operation a value of `op[2:0]` selects (R32). -/
def decodeOp (op : OpSel) : Instr :=
  match op.toNat with
  | 0 => .dilate
  | 1 => .contract
  | 2 => .combine
  | 3 => .norm
  | 4 => .encode
  | 5 => .decode
  | 6 => .denorm
  | _ => .rsvd7

/-- The value of `op[2:0]` that selects an operation (R32). -/
def encodeOp : Instr → OpSel
  | .dilate   => 0b000#3
  | .contract => 0b001#3
  | .combine  => 0b010#3
  | .norm     => 0b011#3
  | .encode   => 0b100#3
  | .decode   => 0b101#3
  | .denorm   => 0b110#3
  | .rsvd7    => 0b111#3

/-- The bits of a table word that reach the three wires of port `op`. "A decoder reads `op[2:0]`" (R31): bits above bit 2
of a padded word have no wire and are not read. DESIGN CHOICE, entry 7. -/
def opOfWord (nbits w : Nat) : OpSel := BitVec.ofNat 3 (w % 2 ^ nbits)

/-- The instruction the decoder reads from a table word. It never refuses: every 3-bit value is decoded (R31, R34). -/
def decodeTableWord (nbits w : Nat) : Option Instr := some (decodeOp (opOfWord nbits w))

/-- The mnemonic of an operation (R37; `RSVD7` spells op = 111). -/
def mnemonicOf : Instr → String
  | .dilate   => "DILATE"
  | .contract => "CONTRACT"
  | .combine  => "COMBINE"
  | .norm     => "NORM"
  | .encode   => "ENCODE"
  | .decode   => "DECODE"
  | .denorm   => "DENORM"
  | .rsvd7    => "RSVD7"

/-- Reading a mnemonic. Any other spelling names no operation (R37). -/
def instrOfMnemonic (m : String) : Option Instr :=
  [Instr.dilate, .contract, .combine, .norm, .encode, .decode, .denorm, .rsvd7].find? fun i => mnemonicOf i == m

end Sys2Proof
end

