-- ==== Sys2Proof/Machine/Fetch.lean ====
section
/-! DEFINITION. Which operation a step runs, and how a table word becomes the next request. The block fetches nothing
(20_memory.md R29): the operation is the value of port `op` at the time of the request. -/

namespace Sys2Proof.Machine

/-- The operation the inputs on the ports select (R29, R32). -/
def State.selected (s : State) : Instr := decodeOp s.op

/-- The host's next request becomes the operation of a table word, with the operands now on `a` and `b` (entry 8). -/
def State.requestNext (s : State) (nbits w : Nat) : State :=
  { s with pending := ⟨opOfWord nbits w, s.a, s.b⟩ :: s.pending }

end Sys2Proof.Machine
end

