-- ==== Sys2Proof/Machine/Step.lean ====
section
/-! DEFINITION. One step is one request whose host obeys the settle rule (70_reset_and_hazards.md R76, R79; D20, D25): the next
request is presented, its operation completes, and the host samples the settled outputs. -/

namespace Sys2Proof.Machine

/-- One request, from its inputs to its sample. Exact for a host that obeys R76 (entry 2). -/
def step (s : State) : Host.Outcome State Fault Refusal :=
  match exec s.presentNext.selected s.presentNext with
  | .next t    => .next t.sample
  | .fault f   => .fault f
  | .refused x => .refused x

/-- The table word `w` becomes the operation of the host's next request, so that the next step runs exactly it. -/
def State.withFetchWord (s : State) (nbits w : Nat) : State := s.requestNext nbits w

end Sys2Proof.Machine
end

