-- ==== Sys2Proof/Machine/Instances.lean ====
section
/-! DEFINITION. Several instances of the block (60_exceptions.md R72; 20_memory.md R26). They share nothing. Requests on separate
instances are interleaved one at a time, in any order (entry 13). Only settled outputs are compared across instances: that
unsettled ones agree at equal counters is the model's choice (entry 5). -/

namespace Sys2Proof.Machine

/-- One step of instance `k` of a list of instances; the others stay as they are. -/
def stepInstance (k : Nat) (bank : List State) : List State :=
  match bank[k]? with
  | none   => bank
  | some s =>
    match step s with
    | .next t    => bank.set k t
    | .fault _   => bank
    | .refused _ => bank

/-- The instances step in the order a schedule gives. -/
def runSchedule : List Nat → List State → List State
  | [],      bank => bank
  | k :: ks, bank => runSchedule ks (stepInstance k bank)

end Sys2Proof.Machine
end

