-- ==== Sys2Proof/WellFormed.lean ====
section
/-! DEFINITION. When an assembler term is well formed (30_encoding.md R37).
Every Instr is well formed: no constructor carries an operand, and every value of `op`, `a` and `b` is a legal request
(R31, R34). What can be ill formed is an assembler request: a literal too wide for its port, a key for the 32-bit port,
an operand given twice, a host name that no earlier line binds. -/

namespace Sys2Proof

/-- How many bits a port has (R14). -/
def Port.width : Port → Nat
  | .a => 64
  | .b => 32

/-- A literal fits its port, and `f64(q)`, a 64-bit pattern, stands only at `a` (R37 "used for DENORM's `a`"; entry 12). -/
def Value.fits (p : Port) : Value → Bool
  | .decimal n  => decide (n < 2 ^ p.width)
  | .hex n      => decide (n < 2 ^ p.width)
  | .f64 _      => p == .a
  | .hostName _ => true

/-- No port is named twice (entry 12) and every value fits its port. -/
def AsmRequest.wf (q : AsmRequest) : Bool :=
  decide ((q.operands.map Prod.fst).Nodup) && q.operands.all fun o => o.2.fits o.1

/-- Every host name the request uses is among `bound`. -/
def AsmRequest.namesBound (bound : List String) (q : AsmRequest) : Bool :=
  q.operands.all fun o =>
    match o.2 with
    | .hostName n => bound.contains n
    | _           => true

/-- A program is well formed when each line is, and uses only names that earlier lines bind (R37 "a later operand may name `t`"). -/
def programWf : List String → List AsmLine → Bool
  | _, [] => true
  | bound, l :: rest =>
    l.request.wf && l.request.namesBound bound && programWf (l.binding.toList ++ bound) rest

end Sys2Proof
end

