-- ==== Sys2Proof/Machine/Program.lean ====
section
/-! DEFINITION. The assembler's lines as requests, and the host's names (30_encoding.md R37). A name is host bookkeeping, not
state of the block, so it stands in a record of its own. -/

namespace Sys2Proof.Machine

/-- The host's names, the latest binding first, and the instance it drives. -/
structure Session where
  names   : List (String × Word64)
  machine : State
  deriving DecidableEq, Repr

/-- The value of an operand: a literal, the pattern nearest to a real, or the `r` kept under a name (R37). None for a name that
nothing binds. -/
def valueOf (names : List (String × Word64)) : Value → Option Nat
  | .decimal n  => some n
  | .hex n      => some n
  | .f64 q      => some (f64Pattern q.negative q.digits (10 ^ q.scale)).toNat
  | .hostName n => (names.lookup n).map BitVec.toNat

/-- The value at a port: 0 where the operand is omitted (R37), none where it does not fit the port (entry 12, safe). -/
def portValue (names : List (String × Word64)) (operands : List (Port × Value)) (p : Port) : Option Nat :=
  match operands.lookup p with
  | none   => some 0
  | some v =>
    match valueOf names v with
    | none   => none
    | some n => if n < 2 ^ p.width then some n else none

/-- The encoding of an assembler request: `op`, `a` and `b` (R37). None for a request that is not well formed: an operand given
twice, a literal too wide for its port, and `f64` at `b` whatever its pattern, `f64(0)` included. R37 is silent on these:
DESIGN CHOICE, entry 12 (safe). -/
def assemble (names : List (String × Word64)) (q : AsmRequest) : Option Request :=
  if q.wf then
    match portValue names q.operands .a, portValue names q.operands .b with
    | some a, some b => some ⟨encodeOp q.mnemonic, BitVec.ofNat 64 a, BitVec.ofNat 32 b⟩
    | _, _           => none
  else none

/-- One line: its request is presented and completes, and its `r` is kept under the line's name. The line's request goes ahead of
any that already wait, which keep their order behind it: R79 says nothing of the host's bookkeeping, so this is a DESIGN
CHOICE, entry 8 (unsafe for a claim about the order of samples when requests wait). None where the line does not
assemble or the machine stops (it never does). -/
def Session.runLine (h : Session) (l : AsmLine) : Option Session :=
  match assemble h.names l.request with
  | none   => none
  | some q =>
    match step { h.machine with pending := q :: h.machine.pending } with
    | .next t    => some ⟨(l.binding.toList.map fun n => (n, t.r)) ++ h.names, t⟩
    | .fault _   => none
    | .refused _ => none

/-- A program: its lines in order (R79 "The sequence is the host's program"). -/
def Session.run : List AsmLine → Session → Option Session
  | [],        h => some h
  | l :: rest, h =>
    match h.runLine l with
    | none    => none
    | some h' => Session.run rest h'

end Sys2Proof.Machine
end

