-- ==== Sys2Proof/Machine/Ports.lean ====
section
/-! DEFINITION. The block as one total function of its inputs (10_state.md R16), and its ports in time
(70_reset_and_hazards.md R73, R75, R76). `step` is a whole request; here the host's single actions are told apart, so that
a sample taken too early gets any value. -/

namespace Sys2Proof.Machine

/-- `F : (op, a, b) → (r, st)` (R16). -/
def blockF (q : Request) : Response :=
  match decodeOp q.op with
  | .dilate   => dilateAnswer q.a
  | .contract => contractAnswer q.a
  | .combine  => combineAnswer q.a q.b
  | .norm     => normAnswer q.a
  | .encode   => encodeAnswer q.a q.b
  | .decode   => decodeAnswer q.a
  | .denorm   => denormAnswer q.a
  | .rsvd7    => rsvd7Answer

/-- One unit of time passes with the inputs held. When the window is over the outputs are `F` of the inputs; before that they
are any value, and may change from one moment to the next (R75). The free values are those of the counter `draws` alone
(DESIGN CHOICE, entry 5). -/
def State.tick (s : State) : State :=
  if s.window ≤ 1 then s.answer (blockF s.request)
  else
    { s with
      window := s.window - 1
      r := Config.unsettledR s.draws, st := Config.unsettledSt s.draws, draws := s.draws + 1 }

/-- The inputs are held for `n` units of time (R76). -/
def State.hold : Nat → State → State
  | 0,     s => s
  | n + 1, s => State.hold n s.tick

/-- What a host can do at the ports, in any order: nothing makes it obey R76. -/
inductive HostAction where
  | drive (q : Request)
  | tick
  | sample
  | issue (q : Request)
  deriving DecidableEq, Repr

/-- The effect of one host action. -/
def HostAction.apply (x : HostAction) (s : State) : State :=
  match x with
  | .drive q => s.drive q
  | .tick    => s.tick
  | .sample  => s.sample
  | .issue q => s.issue q

/-- A request by the three duties of R76: present the next one, hold the inputs for `n` units of time, sample while they are held. -/
def State.requestHeld (s : State) (n : Nat) : State := (State.hold n s.presentNext).sample

end Sys2Proof.Machine
end

