-- ==== Sys2Proof/Safety.lean ====
section
/-! DEFINITION. The words in which statements about the block are made: what an answer may be, when the ports agree with `F`, and
what an operation leaves alone. -/

namespace Sys2Proof.Machine

/-- What R60 and R63 allow an answer to be: `st` is one of the three codes, and `r` is 0 unless `st` is OK. -/
def LawfulResponse (x : Response) : Prop :=
  (x.st = Status.ok.code ∨ x.st = Status.illegalOp.code ∨ x.st = Status.keyDomain.code) ∧
    (x.st ≠ Status.ok.code → x.r = 0)

/-- Once the inputs have been held for `T_SETTLE`, the outputs are `F` of them (R16, R75). -/
def State.settledOutputs (s : State) : Prop := s.window = 0 → s.outputs = blockF s.request

/-- The settle window is never longer than `T_SETTLE` (R75). -/
def State.windowBounded (s : State) : Prop := s.window ≤ Config.tSettle

/-- Every sample the host has taken is a lawful answer (R60, R63, R79). -/
def State.samplesLawful (s : State) : Prop := ∀ x ∈ s.samples, LawfulResponse x

/-- The invariant of a run whose host obeys R76. -/
def State.Inv (s : State) : Prop := s.settledOutputs ∧ s.windowBounded ∧ s.samplesLawful

/-- Only the outputs and their window may differ: inputs, host and the model's counter are as before. -/
def OnlyOutputsChange (s t : State) : Prop :=
  t.op = s.op ∧ t.a = s.a ∧ t.b = s.b ∧ t.draws = s.draws ∧ t.pending = s.pending ∧ t.samples = s.samples

/-- The next request to complete: the first one waiting, or else the one on the ports (entry 3). -/
def State.nextRequest (s : State) : Request := s.pending.head?.getD s.request

/-- Two states look the same to the host and at the ports: all but the model's own counter of free values agrees. -/
def SameButDraws (s t : State) : Prop := { s with draws := t.draws } = t

/-- How many low bits of `a` an operation reads (R33, column "reads"). -/
def bitsReadOfA : Instr → Nat
  | .dilate   => 16
  | .contract => 32
  | .combine  => 32
  | .norm     => 32
  | .encode   => 16
  | .decode   => 32
  | .denorm   => 64
  | .rsvd7    => 0

/-- How many low bits of `b` an operation reads (R33, column "reads"). -/
def bitsReadOfB : Instr → Nat
  | .combine => 32
  | .encode  => 16
  | .dilate | .contract | .norm | .decode | .denorm | .rsvd7 => 0

/-- How many low bits of `r` an operation drives (R33, column "drives"). -/
def bitsDrivenOfR : Instr → Nat
  | .dilate   => 32
  | .contract => 16
  | .combine  => 32
  | .norm     => 64
  | .encode   => 32
  | .decode   => 32
  | .denorm   => 32
  | .rsvd7    => 0

/-- A finite binary64 pattern whose real is as near to `v` as that of any finite pattern (R52, R57 "nearest binary64 value"). -/
def IsNearestKey (v : ℚ) (K : Key) : Prop :=
  ∃ x, keyReal K = some x ∧ ∀ K' y, keyReal K' = some y → |x - v| ≤ |y - v|

end Sys2Proof.Machine
end

