-- ==== Sys2Proof/Certificates/Slice0/Obligations.lean ====
section
/-! DEFINITION. The statements for the provers. A statement about an operation speaks of a request whose host obeys the settle
rule R76, as `exec` and `step` do (entry 2); the statements about `drive`, `tick`, `hold` and `sample` speak of any host. -/

open Sys2Proof Sys2Proof.Machine

/-! ### Encoding -/

/-- R32: the opcode map, value by value. -/
def Obligations.OpcodeMapIsTheTable : Prop :=
  decodeTableWord 8 0b000 = some .dilate ∧ decodeTableWord 8 0b001 = some .contract ∧
    decodeTableWord 8 0b010 = some .combine ∧ decodeTableWord 8 0b011 = some .norm ∧
    decodeTableWord 8 0b100 = some .encode ∧ decodeTableWord 8 0b101 = some .decode ∧
    decodeTableWord 8 0b110 = some .denorm ∧ decodeTableWord 8 0b111 = some .rsvd7

/-- From R31 and R34: decoding and encoding are inverse in both directions, so every 3-bit value has one operation and each operation
one value. -/
def Obligations.DecodeAndEncodeAreInverse : Prop :=
  (∀ i, decodeOp (encodeOp i) = i) ∧ ∀ op, encodeOp (decodeOp op) = op

/-- From R51: `bin64` puts the three fields where the field functions read them, and loses nothing. -/
def Obligations.KeyFieldsRoundTrip : Prop :=
  (∀ s E F, keySign (bin64 s E F) = s ∧ keyExponent (bin64 s E F) = E ∧ keyFraction (bin64 s E F) = F) ∧
    ∀ K, bin64 (keySign K) (keyExponent K) (keyFraction K) = K

/-- From R51: on patterns with sign bit 0 that are finite, the order of the patterns is the order of the reals. -/
def Obligations.KeyPatternsOrderTheirReals : Prop :=
  ∀ K K' : Key, K.toNat < 2047 * 2 ^ 52 → K'.toNat < 2047 * 2 ^ 52 →
    ∃ v v', keyReal K = some v ∧ keyReal K' = some v' ∧ (K.toNat < K'.toNat ↔ v < v')

/-! ### Bit Interleaver -/

/-- R39, R41: DILATE moves bit k of `a[15:0]` to bit 2k of `r`; every other bit of `r` is 0; `st` is OK; nothing else changes. -/
def Obligations.DilateScattersToEvenBits : Prop :=
  ∀ s : State, ∃ t, exec .dilate s = .next t ∧ t.st = 0b00#2 ∧ OnlyOutputsChange s t ∧
    (∀ k, k < 16 → t.r.getLsbD (2 * k) = s.a.getLsbD k ∧ t.r.getLsbD (2 * k + 1) = false) ∧
    ∀ i, 32 ≤ i → t.r.getLsbD i = false

/-- R42, R44: CONTRACT moves bit 2k of `a[31:0]` to bit k of `r`; the odd bits are ignored. -/
def Obligations.ContractGathersEvenBits : Prop :=
  ∀ s : State, ∃ t, exec .contract s = .next t ∧ t.st = 0b00#2 ∧ OnlyOutputsChange s t ∧
    (∀ k, k < 16 → t.r.getLsbD k = s.a.getLsbD (2 * k)) ∧
    ∀ i, 16 ≤ i → t.r.getLsbD i = false

/-- R45: the two functions are inverse on 16-bit values, the other way round they mask, and `dilate16` reaches exactly the
Dilated Values. -/
def Obligations.DilateAndContractAreInverse : Prop :=
  (∀ n, contract32 (dilate16 n) = n) ∧ (∀ v, dilate16 (contract32 v) = v &&& 0x55555555#32) ∧
    (∀ d : Code, (∃ n, dilate16 n = d) ↔ d &&& ~~~ 0x55555555#32 = 0) ∧
    ∀ m n, dilate16 m = dilate16 n → m = n

/-- R40: the spread-bits ladder computes `dilate16`. -/
def Obligations.DilateLadderIsDilate : Prop := ∀ v, dilateLadder v = dilate16 v

/-- R43: the mirrored ladder computes `contract32`. -/
def Obligations.ContractLadderIsContract : Prop := ∀ v, contractLadder v = contract32 v

/-! ### Locality Codec, integer part -/

/-- R46: COMBINE ORs `a[31:0]` with `b` moved up one place, its top bit lost, whatever the operands are. -/
def Obligations.CombineOrsShiftedAxis : Prop :=
  ∀ s : State, ∃ t, exec .combine s = .next t ∧ t.st = 0b00#2 ∧ OnlyOutputsChange s t ∧
    t.r.getLsbD 0 = s.a.getLsbD 0 ∧
    (∀ i, 1 ≤ i → i < 32 → t.r.getLsbD i = (s.a.getLsbD i || s.b.getLsbD (i - 1))) ∧
    ∀ i, 32 ≤ i → t.r.getLsbD i = false

/-- R47: ENCODE puts `a[15:0]` in the even bits and `b[15:0]` in the odd bits. -/
def Obligations.EncodeInterleavesCoordinates : Prop :=
  ∀ s : State, ∃ t, exec .encode s = .next t ∧ t.st = 0b00#2 ∧ OnlyOutputsChange s t ∧
    (∀ k, k < 16 → t.r.getLsbD (2 * k) = s.a.getLsbD k ∧ t.r.getLsbD (2 * k + 1) = s.b.getLsbD k) ∧
    ∀ i, 32 ≤ i → t.r.getLsbD i = false

/-- R48: the bit placement of a Morton Code, for ENCODE and for COMBINE of two dilated coordinates. -/
def Obligations.MortonBitPlacement : Prop :=
  ∀ (s : State) (x y : Coord) (k : Nat), k < 16 →
    (∃ t, exec .encode { s with a := x.setWidth 64, b := y.setWidth 32 } = .next t ∧
      t.r.getLsbD (2 * k) = x.getLsbD k ∧ t.r.getLsbD (2 * k + 1) = y.getLsbD k) ∧
    ∃ t, exec .combine { s with a := (dilate16 x).setWidth 64, b := dilate16 y } = .next t ∧
      t.r.getLsbD (2 * k) = x.getLsbD k ∧ t.r.getLsbD (2 * k + 1) = y.getLsbD k

/-- R49: DECODE gives the even bits of `a[31:0]` in `r[15:0]` and the odd bits in `r[31:16]`, for every input. -/
def Obligations.DecodeSplitsCoordinates : Prop :=
  ∀ s : State, ∃ t, exec .decode s = .next t ∧ t.st = 0b00#2 ∧ OnlyOutputsChange s t ∧
    (∀ k, k < 16 → t.r.getLsbD k = s.a.getLsbD (2 * k) ∧ t.r.getLsbD (16 + k) = s.a.getLsbD (2 * k + 1)) ∧
    ∀ i, 32 ≤ i → t.r.getLsbD i = false

/-- R50: DECODE of ENCODE returns the coordinates, ENCODE of DECODE returns the code, and ENCODE is one-to-one onto the codes. -/
def Obligations.EncodeAndDecodeAreInverse : Prop :=
  (∀ s : State, ∃ t u, exec .encode s = .next t ∧ exec .decode { t with a := t.r } = .next u ∧
    u.st = 0b00#2 ∧ u.r.extractLsb' 0 16 = s.a.extractLsb' 0 16 ∧ u.r.extractLsb' 16 16 = s.b.extractLsb' 0 16) ∧
  (∀ s : State, ∃ t u, exec .decode s = .next t ∧
    exec .encode { t with a := (t.r.extractLsb' 0 16).setWidth 64, b := (t.r.extractLsb' 16 16).setWidth 32 } = .next u ∧
    u.st = 0b00#2 ∧ u.r = (s.a.extractLsb' 0 32).setWidth 64) ∧
  Function.Bijective fun p : Coord × Coord => mortonEncode p.1 p.2

/-- R38: ENCODE answers what DILATE of x, DILATE of y and COMBINE of the two results answer, as three requests. -/
def Obligations.EncodeIsDilateDilateCombine : Prop :=
  ∀ s : State, ∃ dx dy c e, exec .dilate s = .next dx ∧ exec .dilate { s with a := s.b.setWidth 64 } = .next dy ∧
    exec .combine { s with a := dx.r, b := dy.r.setWidth 32 } = .next c ∧ exec .encode s = .next e ∧
    c.outputs = e.outputs

/-! ### Locality Codec, normalization part -/

/-- R52: NORM gives +0.0 for 0 and 1.0 for D; for any other code it gives the exponent `k - 32` and a 53-bit significand that is
strictly nearest to `c * 2^(84-k) / D`, so that no tie rule matters. -/
def Obligations.NormRoundsTheQuotient : Prop :=
  ∀ s : State, ∃ t, exec .norm s = .next t ∧ t.st = 0b00#2 ∧ OnlyOutputsChange s t ∧
    (s.a.toNat % 2 ^ 32 = 0 → t.r = 0) ∧
    (s.a.toNat % 2 ^ 32 = 4294967295 → t.r = 0x3FF0000000000000#64) ∧
    (s.a.toNat % 2 ^ 32 ≠ 0 → s.a.toNat % 2 ^ 32 ≠ 4294967295 →
      ∃ k m : Nat, 2 ^ k ≤ s.a.toNat % 2 ^ 32 ∧ s.a.toNat % 2 ^ 32 < 2 ^ (k + 1) ∧ 2 ^ 52 ≤ m ∧ m < 2 ^ 53 ∧
        2 * |(m : ℤ) * 4294967295 - (s.a.toNat % 2 ^ 32 : ℕ) * 2 ^ (84 - k)| < 4294967295 ∧
        keySign t.r = 0 ∧ (keyExponent t.r).toNat + 32 = k + 1023 ∧ (keyFraction t.r).toNat + 2 ^ 52 = m)

/-- From R52: NORM's key is finite and no finite binary64 value is nearer to `c / D`. -/
def Obligations.NormIsNearestBinary64 : Prop :=
  ∀ s : State, ∃ t, exec .norm s = .next t ∧
    IsNearestKey (((s.a.toNat % 2 ^ 32 : ℕ) : ℚ) / 4294967295) t.r

/-- R53: the range of NORM's keys, their exponent fields, and that NORM is strictly increasing. -/
def Obligations.NormRangeAndOrder : Prop :=
  (∀ c : Code, ∃ v, keyReal (normKey c) = some v ∧ (c = 0 → normKey c = 0) ∧
    (c ≠ 0 → keySign (normKey c) = 0 ∧ 1 / 2 ^ 32 ≤ v ∧ v ≤ 1) ∧
    (c ≠ 0 → c.toNat ≠ 4294967295 →
      991 ≤ (keyExponent (normKey c)).toNat ∧ (keyExponent (normKey c)).toNat ≤ 1022) ∧
    (c.toNat = 4294967295 → (keyExponent (normKey c)).toNat = 1023)) ∧
  ∀ c c' : Code, c.toNat < c'.toNat →
    ∃ v v', keyReal (normKey c) = some v ∧ keyReal (normKey c') = some v' ∧ v < v'

/-- R54, R62: the pattern test accepts exactly the finite keys whose real lies in [0, 1], −0.0 among them; every other pattern is
refused with KEY_DOMAIN and r = 0. -/
def Obligations.DenormDomainIsUnitInterval : Prop :=
  ∀ K : Key, (keyAccepted K = true ↔ (K.toNat ≤ 0x3FF0000000000000 ∨ K = 0x8000000000000000#64)) ∧
    (keyAccepted K = true ↔ ∃ v, keyReal K = some v ∧ 0 ≤ v ∧ v ≤ 1) ∧
    (keyAccepted K = true → ∀ b, (blockF ⟨0b110#3, K, b⟩).st = 0b00#2) ∧
    (keyAccepted K = false → ∀ b, blockF ⟨0b110#3, K, b⟩ = ⟨0, 0b10#2⟩)

/-- R55, R62: DENORM of an accepted key gives the integer nearest to the exact product with D, ties to even, at most D; a refused
key gives KEY_DOMAIN and r = 0. -/
def Obligations.DenormRoundsOrRefuses : Prop :=
  ∀ s : State,
    (s.a.toNat ≤ 0x3FF0000000000000 ∨ s.a = 0x8000000000000000#64 →
      ∃ t v, exec .denorm s = .next t ∧ t.st = 0b00#2 ∧ OnlyOutputsChange s t ∧ keyReal s.a = some v ∧
        t.r.toNat ≤ 4294967295 ∧ |v * 4294967295 - t.r.toNat| ≤ 1 / 2 ∧
        (|v * 4294967295 - t.r.toNat| = 1 / 2 → t.r.toNat % 2 = 0)) ∧
    (¬ (s.a.toNat ≤ 0x3FF0000000000000 ∨ s.a = 0x8000000000000000#64) →
      ∃ t, exec .denorm s = .next t ∧ t.st = 0b10#2 ∧ t.r = 0 ∧ OnlyOutputsChange s t)

/-- From R55 and R58: subnormal keys and both zeros give 0 with OK, infinities and NaNs are refused. -/
def Obligations.SubnormalKeysGiveZeroNonFiniteAreRefused : Prop :=
  (∀ s : State, s.a.toNat < 2 ^ 52 ∨ s.a = 0x8000000000000000#64 →
    ∃ t, exec .denorm s = .next t ∧ t.r = 0 ∧ t.st = 0b00#2) ∧
  ∀ s : State, keyReal s.a = none → ∃ t, exec .denorm s = .next t ∧ t.r = 0 ∧ t.st = 0b10#2

/-- R56: DENORM of NORM returns the code, for every 32-bit code. -/
def Obligations.DenormOfNormIsTheCode : Prop :=
  ∀ s : State, ∃ t u, exec .norm s = .next t ∧ exec .denorm { t with a := t.r } = .next u ∧
    u.st = 0b00#2 ∧ u.r = (s.a.extractLsb' 0 32).setWidth 64

/-- From R50 and R56: the whole path ENCODE, NORM, DENORM, DECODE returns the two coordinates. -/
def Obligations.WholePathReturnsCoordinates : Prop :=
  ∀ s : State, ∃ e n d u, exec .encode s = .next e ∧ exec .norm { e with a := e.r } = .next n ∧
    exec .denorm { n with a := n.r } = .next d ∧ exec .decode { d with a := d.r } = .next u ∧
    u.st = 0b00#2 ∧ u.r.extractLsb' 0 16 = s.a.extractLsb' 0 16 ∧ u.r.extractLsb' 16 16 = s.b.extractLsb' 0 16

/-- From R57: DENORM recovers the code from any accepted key nearer than 1/(2D) to `c / D`. -/
def Obligations.DenormToleratesSmallError : Prop :=
  ∀ (s : State) (c : Code) (v : ℚ), keyAccepted s.a = true → keyReal s.a = some v →
    |v - (c.toNat : ℚ) / 4294967295| < 1 / (2 * 4294967295) →
    ∃ t, exec .denorm s = .next t ∧ t.st = 0b00#2 ∧ t.r = c.setWidth 64

/-- From R57: a decimal text of at least 10 digits after the point, rounded to nearest and read back as the nearest binary64
value, recovers the code; with 9 digits some code is lost. The text is the host's and stands in this statement only, as an
integer within one half of the scaled key and any nearest pattern read back (DEDUCED, entry 14). -/
def Obligations.TenDecimalDigitsRecoverTheCode : Prop :=
  (∀ (N : Nat) (c : Code) (v : ℚ) (d : ℤ) (K : Key), 10 ≤ N → keyReal (normKey c) = some v →
    |(d : ℚ) - v * 10 ^ N| ≤ 1 / 2 → IsNearestKey ((d : ℚ) / 10 ^ N) K →
    keyAccepted K = true ∧ denormCode K = c) ∧
  ∃ (c : Code) (v : ℚ) (d : ℤ) (K : Key), keyReal (normKey c) = some v ∧ |(d : ℚ) - v * 10 ^ 9| ≤ 1 / 2 ∧
    IsNearestKey ((d : ℚ) / 10 ^ 9) K ∧ denormCode K ≠ c

/-! ### Status and operands, all operations -/

/-- R61: the reserved encoding answers ILLEGAL_OP with r = 0, whatever the operands. -/
def Obligations.ReservedEncodingIsIllegalOp : Prop :=
  ∀ s : State, ∃ t, exec .rsvd7 s = .next t ∧ t.st = 0b01#2 ∧ t.r = 0 ∧ OnlyOutputsChange s t

/-- R60, R63: every operation goes on, with one of the three statuses; who raises which; `r` is 0 on an error; nothing else is
recorded. -/
def Obligations.StatusNamesItsCause : Prop :=
  ∀ (i : Instr) (s : State), ∃ t, exec i s = .next t ∧ OnlyOutputsChange s t ∧ t.window = 0 ∧
    (t.st = 0b01#2 ↔ i = .rsvd7) ∧ (t.st = 0b10#2 ↔ i = .denorm ∧ keyAccepted s.a = false) ∧
    t.st ≠ 0b11#2 ∧ (t.st ≠ 0b00#2 → t.r = 0)

/-- From R33: input bits outside an operation's slices change nothing, and the bits of `r` it does not drive are 0. -/
def Obligations.OnlyTheSlicesMatter : Prop :=
  ∀ (i : Instr) (s s' : State), (∀ k, k < bitsReadOfA i → s.a.getLsbD k = s'.a.getLsbD k) →
    (∀ k, k < bitsReadOfB i → s.b.getLsbD k = s'.b.getLsbD k) →
    ∃ t t', exec i s = .next t ∧ exec i s' = .next t' ∧ t.outputs = t'.outputs ∧
      ∀ k, bitsDrivenOfR i ≤ k → t.r.getLsbD k = false

/-! ### The step, the run, the instances -/

/-- From R29, R31 and R79: a step presents the host's next request, or keeps the one on the ports (the model's choice, entry 3),
runs the operation its `op` selects, and samples; a table word laid before the step is the operation it runs (entry 8). -/
def Obligations.StepRunsTheSelectedOperation : Prop :=
  (∀ s : State, s.pending = [] → ∃ t, exec (decodeOp s.op) s = .next t ∧ step s = .next t.sample) ∧
  (∀ (s : State) (q : Request) (qs : List Request), s.pending = q :: qs →
    ∃ t, exec (decodeOp q.op) ({ s with pending := qs }.drive q) = .next t ∧ step s = .next t.sample) ∧
  ∀ (s : State) (nbits w : Nat) (i : Instr), decodeTableWord nbits w = some i →
    ∃ t, exec i (s.drive ⟨opOfWord nbits w, s.a, s.b⟩) = .next t ∧ step (s.withFetchWord nbits w) = .next t.sample

/-- R17: the operation that the ports select answers `F` of the ports, and equal requests are answered equally, whatever else
differs between the two states. -/
def Obligations.PortsAnswerTheFunction : Prop :=
  ∀ s : State, ∃ t, exec (decodeOp s.op) s = .next t ∧ t.outputs = blockF s.request ∧
    ∀ s' : State, s'.op = s.op → s'.a = s.a → s'.b = s.b →
      ∃ t', exec (decodeOp s'.op) s' = .next t' ∧ t'.outputs = t.outputs

/-- From R16: a step always completes, and its answer is `F` of the request it completes (the one on the ports where none waits:
the model's choice, entry 3). -/
def Obligations.StepAnswersTheFunction : Prop :=
  ∀ s : State, ∃ t, step s = .next t ∧ t.outputs = blockF s.nextRequest ∧ t.request = s.nextRequest ∧ t.window = 0 ∧
    t.pending = s.pending.tail ∧ t.samples = s.samples ++ [blockF s.nextRequest]

/-- From R12 and R67: two steps that complete equal requests answer equally, whatever came before: no sticky status. Which
request a step completes where none waits is the model's choice (entry 3). -/
def Obligations.AnswersDoNotDependOnHistory : Prop :=
  ∀ s s' : State, s.nextRequest = s'.nextRequest →
    ∃ t t', step s = .next t ∧ step s' = .next t' ∧ t.outputs = t'.outputs

/-- From R23: a request is idempotent: completing it again changes only the host's record. That a step with nothing waiting
completes the request on the ports again is the model's choice (entry 3). -/
def Obligations.RequestsAreIdempotent : Prop :=
  ∀ s : State, s.pending = [] →
    ∃ t, step s = .next t ∧ step t = .next { t with samples := t.samples ++ [t.outputs] }

/-- R79: the run of the host's whole sequence gives one sample a request, each `F` of its own request. -/
def Obligations.RunSamplesEachRequest : Prop :=
  ∀ s : State, ∃ t, Sys2Proof.core.run s.pending.length s = .next t ∧ t.pending = [] ∧
    t.samples = s.samples ++ s.pending.map blockF

/-- From R26 and R72: under any interleaving (the model's choice, entry 13) each instance ends as it would alone. -/
def Obligations.InstancesShareNothing : Prop :=
  ∀ (schedule : List Nat) (bank : List State) (k : Nat) (s : State), bank[k]? = some s →
    ∃ t, (runSchedule schedule bank)[k]? = some t ∧ Sys2Proof.core.run (schedule.count k) s = .next t

/-- From R74: after power-up the first request can be presented at once. That its sample is the only one rests on the empty
sequence and the empty record at power-up, the model's choice (entry 8). -/
def Obligations.FirstRequestNeedsNoSetUp : Prop :=
  ∀ q : Request, ∃ t, step (State.reset.issue q) = .next t ∧ t.samples = [blockF q]

/-! ### The ports in time -/

/-- From R75: `T_SETTLE` after a request is driven, the outputs are `F` of it; before that, when the inputs changed, they are the
free value of that moment, whatever it is (entries 5, 6, 10). That this value is one of the counter alone is the model's choice
(entry 5). -/
def Obligations.OutputsSettleAfterTheWindow : Prop :=
  ∀ (s : State) (q : Request) (n : Nat), s.windowBounded →
    (Config.tSettle ≤ n → (State.hold n (s.drive q)).outputs = blockF q) ∧
    (n < Config.tSettle → s.request ≠ q →
      (State.hold n (s.drive q)).outputs = ⟨Config.unsettledR (s.draws + n), Config.unsettledSt (s.draws + n)⟩)

/-- From R76 and D20: for a host that holds its inputs for `T_SETTLE` or longer, a step is what happens at the ports, up to the
model's own counter of free values (entry 2). -/
def Obligations.StepIsARequestHeldLongEnough : Prop :=
  ∀ (s : State) (n : Nat), s.windowBounded → Config.tSettle ≤ n →
    ∃ t, step s = .next t ∧ SameButDraws (s.requestHeld n) t

/-- From R16, R60, R63 and R75: every step keeps the invariant. -/
def Obligations.StepKeepsInvariant : Prop := ∀ s t : State, s.Inv → step s = .next t → t.Inv

/-- From R73: the state at power-up meets the invariant. The window at power-up is the model's `T_SETTLE`, at least one unit
(the model's choice, entries 5, 6). -/
def Obligations.ResetMeetsInvariant : Prop := State.reset.Inv

/-- From R75 and R76: whatever a host does at the ports, settled outputs are `F` of the inputs and no window is longer than
`T_SETTLE`. -/
def Obligations.HostActionsKeepSettledOutputs : Prop :=
  ∀ (s : State) (x : HostAction), s.settledOutputs → s.windowBounded →
    (x.apply s).settledOutputs ∧ (x.apply s).windowBounded

/-! ### The assembler -/

/-- From R37: an omitted operand is 0; decimal and hex literals go to their ports, at each port alone and at both in either
order; `f64(q)` goes to `a`, alone or beside a literal at `b`; the mnemonics are spelled one-to-one. That `f64` at `a`
assembles for every operation, and not for DENORM alone, is the model's choice (entry 12), as is what `f64` gives where
nearest does not decide (entry 11). -/
def Obligations.AssemblyPutsOperandsOnPorts : Prop :=
  (∀ names i, assemble names ⟨i, []⟩ = some ⟨encodeOp i, 0, 0⟩) ∧
  (∀ names i x v, x < 2 ^ 64 → (v = .decimal x ∨ v = .hex x) →
    assemble names ⟨i, [(.a, v)]⟩ = some ⟨encodeOp i, BitVec.ofNat 64 x, 0⟩) ∧
  (∀ names i y w, y < 2 ^ 32 → (w = .decimal y ∨ w = .hex y) →
    assemble names ⟨i, [(.b, w)]⟩ = some ⟨encodeOp i, 0, BitVec.ofNat 32 y⟩) ∧
  (∀ names i x y v w, x < 2 ^ 64 → y < 2 ^ 32 → (v = .decimal x ∨ v = .hex x) → (w = .decimal y ∨ w = .hex y) →
    assemble names ⟨i, [(.a, v), (.b, w)]⟩ = some ⟨encodeOp i, BitVec.ofNat 64 x, BitVec.ofNat 32 y⟩ ∧
    assemble names ⟨i, [(.b, w), (.a, v)]⟩ = some ⟨encodeOp i, BitVec.ofNat 64 x, BitVec.ofNat 32 y⟩) ∧
  (∀ names i q, assemble names ⟨i, [(.a, .f64 q)]⟩ =
    some ⟨encodeOp i, f64Pattern q.negative q.digits (10 ^ q.scale), 0⟩) ∧
  (∀ names i q y w, y < 2 ^ 32 → (w = .decimal y ∨ w = .hex y) →
    assemble names ⟨i, [(.a, .f64 q), (.b, w)]⟩ =
      some ⟨encodeOp i, f64Pattern q.negative q.digits (10 ^ q.scale), BitVec.ofNat 32 y⟩ ∧
    assemble names ⟨i, [(.b, w), (.a, .f64 q)]⟩ =
      some ⟨encodeOp i, f64Pattern q.negative q.digits (10 ^ q.scale), BitVec.ofNat 32 y⟩) ∧
  ∀ m i, instrOfMnemonic m = some i ↔ mnemonicOf i = m

/-- From R37: a well-formed request whose names are bound, a name at the 32-bit port to a result below 2^32, assembles to the
operation of its mnemonic, an operand that names `t` puts the `r` kept under `t` on its port, and an omitted operand is 0. What
well formed asks, and that a wider result at `b` does not assemble, is the model's choice (entry 12). -/
def Obligations.WellFormedRequestsAssemble : Prop :=
  ∀ (names : List (String × Word64)) (q : AsmRequest), q.wf = true → q.namesBound (names.map Prod.fst) = true →
    (∀ n k, (Port.b, Value.hostName n) ∈ q.operands → names.lookup n = some k → k.toNat < 2 ^ 32) →
    ∃ r, assemble names q = some r ∧ r.op = encodeOp q.mnemonic ∧
      (∀ n k, (Port.a, Value.hostName n) ∈ q.operands → names.lookup n = some k → r.a = k) ∧
      (∀ n k, (Port.b, Value.hostName n) ∈ q.operands → names.lookup n = some k → r.b.toNat = k.toNat) ∧
      ((∀ v, (Port.a, v) ∉ q.operands) → r.a = 0) ∧ ((∀ v, (Port.b, v) ∉ q.operands) → r.b = 0)

/-- The model's choice where R37 is silent (entry 12): a request that is not well formed, that uses a name nothing binds, or that
names a result of 2^32 or more at the 32-bit port does not assemble. -/
def Obligations.OtherRequestsDoNotAssemble : Prop :=
  ∀ (names : List (String × Word64)) (q : AsmRequest),
    (q.wf = false → assemble names q = none) ∧
    (∀ p n, (p, Value.hostName n) ∈ q.operands → names.lookup n = none → assemble names q = none) ∧
    ∀ n k, (Port.b, Value.hostName n) ∈ q.operands → names.lookup n = some k → 2 ^ 32 ≤ k.toNat → assemble names q = none

/-- From R37: a binding keeps the `r` of its request, whatever the machine did before, and a later operand that names it puts
that `r` on its port: at `a` always, at `b` where it is below 2^32. That the line goes ahead of requests already waiting is the model's choice
(entry 8). -/
def Obligations.BindingKeepsTheResult : Prop :=
  ∀ (h : Session) (n : String) (l : AsmRequest) (q : Request), assemble h.names l = some q →
    ∃ h', h.runLine ⟨some n, l⟩ = some h' ∧ h'.names.lookup n = some (blockF q).r ∧ h'.machine.outputs = blockF q ∧
      (∀ i, assemble h'.names ⟨i, [(.a, .hostName n)]⟩ = some ⟨encodeOp i, (blockF q).r, 0⟩) ∧
      ∀ i, (blockF q).r.toNat < 2 ^ 32 →
        assemble h'.names ⟨i, [(.b, .hostName n)]⟩ = some ⟨encodeOp i, 0, (blockF q).r.setWidth 32⟩

/-- From R37: a real that does not round beyond the largest finite value gets from `f64` a finite pattern that none is nearer
than, whichever way a tie goes and whichever sign a zero has; one that does gets a value the model leaves free (entry 11). -/
def Obligations.F64PatternIsNearest : Prop :=
  ∀ (neg : Bool) (num den : Nat), 0 < den →
    (nearestMagnitude num den < 2047 * 2 ^ 52 →
      IsNearestKey ((if neg then -1 else 1) * ((num : ℚ) / den)) (f64Pattern neg num den)) ∧
    (2047 * 2 ^ 52 ≤ nearestMagnitude num den → f64Pattern neg num den = Config.f64Overflow neg num den)

/-- From R52: NORM's key is the pattern that `f64` gives the quotient `c / D`. The case c = 0 is the model's choice (entry 11): R52
makes NORM's key +0.0, and that `f64` writes a zero that is not negative as +0.0 is not said by R37. -/
def Obligations.NormIsF64OfTheQuotient : Prop :=
  ∀ c : Code, normKey c = f64Pattern false c.toNat 4294967295
end

