-- ==== Sys2Proof/Laws/Decode.lean ====
section
/-! SUPPORT. The small lemmas of the opcode map. -/

namespace Sys2Proof

theorem opOfWord_toNat (nbits w : Nat) : (opOfWord nbits w).toNat = w % 2 ^ nbits % 8 := by
  simp [opOfWord]

theorem decodeTableWord_eq (nbits w : Nat) : decodeTableWord nbits w = some (decodeOp (opOfWord nbits w)) := rfl

end Sys2Proof
end

