-- ==== Sys2Proof/Laws/Interleaver.lean ====
section
/-! SUPPORT. The bits of the interleaver's functions: one lemma per function, which proofs cite instead of unfolding the loop. -/

namespace Sys2Proof.Machine

theorem getLsbD_assignBit {n : Nat} (r : BitVec n) (i j : Nat) (v : Bool) :
    (assignBit r i v).getLsbD j = if i = j ∧ j < n then v else r.getLsbD j := by
  unfold assignBit
  by_cases hj : j < n
  · by_cases hij : i = j
    · cases v <;> simp [hj, hij]
    · have hji : j ≠ i := Ne.symm hij
      cases v <;> simp [hj, hij, hji]
  · have := BitVec.getLsbD_of_ge r j (by omega)
    have hne : i < n → i ≠ j := by omega
    cases v <;> simp [hj, this]
    exact hne

theorem getLsbD_scatterBits (v : Coord) (n j : Nat) (hn : n ≤ 16) :
    (scatterBits v n).getLsbD j = (decide (j < 2 * n) && decide (j % 2 = 0) && v.getLsbD (j / 2)) := by
  induction n with
  | zero => simp [scatterBits]
  | succ n ih =>
    rw [scatterBits, getLsbD_assignBit, getLsbD_assignBit, ih (by omega)]
    by_cases h1 : 2 * n + 1 = j
    · subst h1
      have : (2 * n + 1) % 2 = 1 := by omega
      simp [this]
    · by_cases h2 : 2 * n = j
      · subst h2
        have : 2 * n < 32 := by omega
        have : 2 * n < 2 * (n + 1) := by omega
        simp [*]
      · have : (j < 2 * (n + 1)) = (j < 2 * n) := by
          apply propext
          omega
        simp [h1, h2, this]

/-- Bit `j` of `dilate16 v`: an even position carries bit `j / 2` of `v`, every other position is 0 (R39). -/
theorem getLsbD_dilate16 (v : Coord) (j : Nat) :
    (dilate16 v).getLsbD j = (decide (j < 32) && decide (j % 2 = 0) && v.getLsbD (j / 2)) := by
  rw [dilate16, getLsbD_scatterBits v 16 j (by omega)]

theorem getLsbD_gatherBits (v : Code) (n j : Nat) (hn : n ≤ 16) :
    (gatherBits v n).getLsbD j = (decide (j < n) && v.getLsbD (2 * j)) := by
  induction n with
  | zero => simp [gatherBits]
  | succ n ih =>
    rw [gatherBits, getLsbD_assignBit, ih (by omega)]
    by_cases h : n = j
    · subst h
      have : n < 16 := by omega
      simp [this]
    · have : (j < n + 1) = (j < n) := by
        apply propext
        omega
      simp [h, this]

/-- The even-position mask has exactly the even bits (R5). -/
theorem getLsbD_mEven (j : Nat) : Config.mEven.getLsbD j = (decide (j < 32) && decide (j % 2 = 0)) := by
  by_cases h : j < 32
  · have : ∀ i : Fin 32, Config.mEven.getLsbD i = decide (i.val % 2 = 0) := by decide
    simpa [h] using this ⟨j, h⟩
  · simp [h, BitVec.getLsbD_of_ge Config.mEven j (by omega)]

/-- Bit `j` of `contract32 v` is bit `2j` of `v` (R42). -/
theorem getLsbD_contract32 (v : Code) (j : Nat) :
    (contract32 v).getLsbD j = (decide (j < 16) && v.getLsbD (2 * j)) := by
  rw [contract32, getLsbD_gatherBits _ 16 j (by omega), BitVec.getLsbD_and, getLsbD_mEven]
  by_cases h : j < 16
  · have : 2 * j < 32 := by omega
    simp [h, this]
  · simp [h]

end Sys2Proof.Machine
end

