-- ==== Sys2Proof/Laws/Normalizer.lean ====
section
/-! SUPPORT. What the two roundings of the normalizer give, and the real of a finite pattern: one lemma each, which proofs cite
instead of unfolding the arithmetic. -/

namespace Sys2Proof.Machine

/-- NORM's significand is strictly nearest: a tie would need `2 * rem = D`, and `D` is odd (R52). -/
theorem normSignificand_nearest (c k : Nat) :
    2 * |(normSignificand c k : ℤ) * Config.divisor - (c * 2 ^ (84 - k) : ℕ)| < Config.divisor := by
  have hdiv := Nat.div_add_mod (c * 2 ^ (84 - k)) Config.divisor
  have hmod := Nat.mod_lt (c * 2 ^ (84 - k)) (show 0 < Config.divisor by decide)
  unfold normSignificand
  simp only [Config.divisor] at hdiv hmod ⊢
  generalize c * 2 ^ (84 - k) = p at hdiv hmod ⊢
  obtain ⟨m, hm⟩ : ∃ m, p / 4294967295 = m := ⟨_, rfl⟩
  obtain ⟨rem, hr⟩ : ∃ rem, p % 4294967295 = rem := ⟨_, rfl⟩
  rw [hm, hr] at hdiv
  rw [hr] at hmod
  have hp : (p : ℤ) = 4294967295 * m + rem := by exact_mod_cast hdiv.symm
  rw [hp]
  simp only [hm, hr]
  split
  · rw [show (((m + 1 : ℕ) : ℤ) * (4294967295 : ℕ) - (4294967295 * m + rem)) = 4294967295 - rem by push_cast; ring,
      abs_of_nonneg (by omega)]
    omega
  · rw [show ((m : ℤ) * (4294967295 : ℕ) - (4294967295 * m + rem)) = -(rem : ℤ) by push_cast; ring, abs_neg,
      abs_of_nonneg (by omega)]
    omega

/-- DENORM's rounding is to nearest, and to even on a tie (R55). -/
theorem roundShift_nearest (p sh : Nat) (hsh : 0 < sh) :
    2 * |(roundShift p sh : ℤ) * 2 ^ sh - p| ≤ 2 ^ sh ∧
      (2 * |(roundShift p sh : ℤ) * 2 ^ sh - p| = 2 ^ sh → roundShift p sh % 2 = 0) := by
  have hdiv := Nat.div_add_mod p (2 ^ sh)
  have hmod := Nat.mod_lt p (show 0 < 2 ^ sh by positivity)
  obtain ⟨n, rfl⟩ : ∃ n, sh = n + 1 := ⟨sh - 1, by omega⟩
  have hpow : 2 ^ (n + 1) = 2 * 2 ^ n := by ring
  unfold roundShift
  simp only [Nat.add_sub_cancel]
  generalize hq : p / 2 ^ (n + 1) = q at hdiv ⊢
  generalize hr : p % 2 ^ (n + 1) = rem at hdiv hmod ⊢
  have hp : (p : ℤ) = 2 ^ (n + 1) * q + rem := by exact_mod_cast hdiv.symm
  rw [hp, show (2 : ℤ) ^ (n + 1) = ((2 * 2 ^ n : ℕ) : ℤ) by push_cast; ring]
  rw [hpow] at hmod
  generalize 2 ^ n = h at hmod ⊢
  split
  · rw [show (((q + 1 : ℕ) : ℤ) * (2 * h : ℕ) - ((2 * h : ℕ) * q + rem)) = (2 * h : ℕ) - rem by push_cast; ring,
      abs_of_nonneg (by omega)]
    omega
  · rw [show ((q : ℤ) * (2 * h : ℕ) - ((2 * h : ℕ) * q + rem)) = -(rem : ℤ) by push_cast; ring, abs_neg,
      abs_of_nonneg (by omega)]
    omega

/-- The real of a finite pattern, one formula for zeros, subnormals and normals (R51). -/
theorem keyReal_of_finite (K : Key) (h : (keyExponent K).toNat ≠ 2047) :
    keyReal K = some (signFactor (keySign K) *
      (if (keyExponent K).toNat = 0 then ((keyFraction K).toNat : ℚ) / 2 ^ 1074
        else (2 ^ 52 + ((keyFraction K).toNat : ℚ)) * 2 ^ (keyExponent K).toNat / 2 ^ 1075)) := by
  unfold keyReal keyValue
  simp only [h, if_false]
  split
  · split
    · next h0 => rw [h0, Nat.cast_zero, zero_div, mul_zero, KeyValue.real]
    · simp only [KeyValue.real, mul_div_assoc]
  · simp only [KeyValue.real, mul_div_assoc, mul_assoc]

/-- An infinity or a NaN has no real (R51). -/
theorem keyReal_of_non_finite (K : Key) (h : (keyExponent K).toNat = 2047) : keyReal K = none := by
  unfold keyReal keyValue
  simp only [h, if_true]
  split <;> rfl

end Sys2Proof.Machine
end

