-- ==== Sys2Proof/Laws/PerInstr.lean ====
section
/-! SUPPORT. Statements made once per operation of the opcode map. -/

namespace Sys2Proof.Laws.Spelling

/-- An operation's encoding fits the three wires of `op`, the padded table word of it decodes to it, and its mnemonic reads back
as it (R31, R32, R37). -/
def Statement (i : Instr) : Prop :=
  decodeTableWord 8 (encodeOp i).toNat = some i ∧ instrOfMnemonic (mnemonicOf i) = some i

theorem dilate : Statement .dilate := ⟨rfl, by decide⟩
theorem contract : Statement .contract := ⟨rfl, by decide⟩
theorem combine : Statement .combine := ⟨rfl, by decide⟩
theorem norm : Statement .norm := ⟨rfl, by decide⟩
theorem encode : Statement .encode := ⟨rfl, by decide⟩
theorem decode : Statement .decode := ⟨rfl, by decide⟩
theorem denorm : Statement .denorm := ⟨rfl, by decide⟩
theorem rsvd7 : Statement .rsvd7 := ⟨rfl, by decide⟩

end Sys2Proof.Laws.Spelling
end

