-- ==== Sys2Proof/Laws/Program.lean ====
section
/-! SUPPORT. What an operand puts on its port, and when a request assembles: one lemma per function of the assembler. -/

namespace Sys2Proof.Machine

/-- Where no key stands twice, looking up the key of an entry gives the entry. -/
theorem lookup_of_mem_nodup (l : List (Port × Value)) (p : Port) (v : Value) (hl : (l.map Prod.fst).Nodup)
    (h : (p, v) ∈ l) : l.lookup p = some v := by
  induction l with
  | nil => cases h
  | cons e l ih =>
    obtain ⟨p', v'⟩ := e
    rw [List.map_cons, List.nodup_cons] at hl
    rcases List.mem_cons.1 h with h | h
    · cases h
      simp
    · have hne : p ≠ p' := fun e => hl.1 (List.mem_map.2 ⟨(p, v), h, e⟩)
      rw [List.lookup_cons, beq_false_of_ne hne]
      exact ih hl.2 h

/-- Looking up a key that no entry has gives nothing. -/
theorem lookup_of_forall_not_mem (l : List (Port × Value)) (p : Port) (h : ∀ v, (p, v) ∉ l) : l.lookup p = none := by
  rw [List.lookup_eq_none_iff]
  intro e he
  by_contra hp
  have : p = e.1 := by simpa using hp
  exact h e.2 (this ▸ he)

/-- An omitted operand is 0 (R37). -/
theorem portValue_omitted (names : List (String × Word64)) (l : List (Port × Value)) (p : Port) (h : ∀ v, (p, v) ∉ l) :
    portValue names l p = some 0 := by
  simp [portValue, lookup_of_forall_not_mem l p h]

/-- An operand given once whose value fits its port puts that value there (R37). -/
theorem portValue_of_mem (names : List (String × Word64)) (l : List (Port × Value)) (p : Port) (v : Value) (n : Nat)
    (hl : (l.map Prod.fst).Nodup) (h : (p, v) ∈ l) (hv : valueOf names v = some n) (hn : n < 2 ^ p.width) :
    portValue names l p = some n := by
  simp [portValue, lookup_of_mem_nodup l p v hl h, hv, hn]

/-- An operand given once whose value is too wide for its port puts none there (entry 12). -/
theorem portValue_too_wide (names : List (String × Word64)) (l : List (Port × Value)) (p : Port) (v : Value) (n : Nat)
    (hl : (l.map Prod.fst).Nodup) (h : (p, v) ∈ l) (hv : valueOf names v = some n) (hn : 2 ^ p.width ≤ n) :
    portValue names l p = none := by
  simp [portValue, lookup_of_mem_nodup l p v hl h, hv, Nat.not_lt.2 hn]

/-- An operand given once that has no value puts none on its port: a name that nothing binds. -/
theorem portValue_unbound (names : List (String × Word64)) (l : List (Port × Value)) (p : Port) (v : Value)
    (hl : (l.map Prod.fst).Nodup) (h : (p, v) ∈ l) (hv : valueOf names v = none) : portValue names l p = none := by
  simp [portValue, lookup_of_mem_nodup l p v hl h, hv]

/-- In a well-formed request no port is named twice (entry 12). -/
theorem operands_nodup_of_wf (q : AsmRequest) (h : q.wf = true) : (q.operands.map Prod.fst).Nodup := by
  simp only [AsmRequest.wf, Bool.and_eq_true, decide_eq_true_eq] at h
  exact h.1

/-- A well-formed request with a value for each port assembles to them (R37). -/
theorem assemble_of_portValues (names : List (String × Word64)) (q : AsmRequest) (x y : Nat) (hq : q.wf = true)
    (ha : portValue names q.operands .a = some x) (hb : portValue names q.operands .b = some y) :
    assemble names q = some ⟨encodeOp q.mnemonic, BitVec.ofNat 64 x, BitVec.ofNat 32 y⟩ := by
  simp [assemble, hq, ha, hb]

/-- A port without a value: the request does not assemble. -/
theorem assemble_of_no_portValue (names : List (String × Word64)) (q : AsmRequest) (p : Port)
    (h : portValue names q.operands p = none) : assemble names q = none := by
  unfold assemble
  split
  · cases p
    · simp [h]
    · rw [h]
      cases portValue names q.operands .a <;> rfl
  · rfl

end Sys2Proof.Machine
end

