-- ==== Sys2Proof/Laws/State.lean ====
section
/-! SUPPORT. One lemma per field per update of State, and what driving and presenting do to the inputs, so that no proof unfolds
a record update. -/

namespace Sys2Proof.Machine

@[simp] theorem State.answer_op (s : State) (x : Response) : (s.answer x).op = s.op := rfl
@[simp] theorem State.answer_a (s : State) (x : Response) : (s.answer x).a = s.a := rfl
@[simp] theorem State.answer_b (s : State) (x : Response) : (s.answer x).b = s.b := rfl
@[simp] theorem State.answer_r (s : State) (x : Response) : (s.answer x).r = x.r := rfl
@[simp] theorem State.answer_st (s : State) (x : Response) : (s.answer x).st = x.st := rfl
@[simp] theorem State.answer_window (s : State) (x : Response) : (s.answer x).window = 0 := rfl
@[simp] theorem State.answer_draws (s : State) (x : Response) : (s.answer x).draws = s.draws := rfl
@[simp] theorem State.answer_pending (s : State) (x : Response) : (s.answer x).pending = s.pending := rfl
@[simp] theorem State.answer_samples (s : State) (x : Response) : (s.answer x).samples = s.samples := rfl
@[simp] theorem State.answer_request (s : State) (x : Response) : (s.answer x).request = s.request := rfl
@[simp] theorem State.answer_outputs (s : State) (x : Response) : (s.answer x).outputs = x := rfl

@[simp] theorem State.sample_op (s : State) : s.sample.op = s.op := rfl
@[simp] theorem State.sample_a (s : State) : s.sample.a = s.a := rfl
@[simp] theorem State.sample_b (s : State) : s.sample.b = s.b := rfl
@[simp] theorem State.sample_r (s : State) : s.sample.r = s.r := rfl
@[simp] theorem State.sample_st (s : State) : s.sample.st = s.st := rfl
@[simp] theorem State.sample_window (s : State) : s.sample.window = s.window := rfl
@[simp] theorem State.sample_draws (s : State) : s.sample.draws = s.draws := rfl
@[simp] theorem State.sample_pending (s : State) : s.sample.pending = s.pending := rfl
@[simp] theorem State.sample_samples (s : State) : s.sample.samples = s.samples ++ [s.outputs] := rfl
@[simp] theorem State.sample_request (s : State) : s.sample.request = s.request := rfl
@[simp] theorem State.sample_outputs (s : State) : s.sample.outputs = s.outputs := rfl

@[simp] theorem State.issue_request (s : State) (q : Request) : (s.issue q).request = s.request := rfl
@[simp] theorem State.issue_outputs (s : State) (q : Request) : (s.issue q).outputs = s.outputs := rfl
@[simp] theorem State.issue_window (s : State) (q : Request) : (s.issue q).window = s.window := rfl
@[simp] theorem State.issue_draws (s : State) (q : Request) : (s.issue q).draws = s.draws := rfl
@[simp] theorem State.issue_pending (s : State) (q : Request) : (s.issue q).pending = s.pending ++ [q] := rfl
@[simp] theorem State.issue_samples (s : State) (q : Request) : (s.issue q).samples = s.samples := rfl

/-- Inputs driven to what they were change nothing at all (entry 10). -/
theorem State.drive_same (s : State) : s.drive s.request = s := by
  simp [State.drive, State.sameInputs]

/-- Changed inputs: everything that a new settle window does (R75, R76). -/
theorem State.drive_changed (s : State) (q : Request) (h : s.request ≠ q) :
    s.drive q =
      { s with
        op := q.op, a := q.a, b := q.b
        r := Config.unsettledR s.draws, st := Config.unsettledSt s.draws
        window := Config.tSettle, draws := s.draws + 1 } := by
  simp [State.drive, State.sameInputs, h]

@[simp] theorem State.drive_request (s : State) (q : Request) : (s.drive q).request = q := by
  by_cases h : s.request = q
  · subst h
    rw [State.drive_same]
  · rw [State.drive_changed s q h]
    rfl

@[simp] theorem State.drive_pending (s : State) (q : Request) : (s.drive q).pending = s.pending := by
  unfold State.drive
  split <;> rfl

@[simp] theorem State.drive_samples (s : State) (q : Request) : (s.drive q).samples = s.samples := by
  unfold State.drive
  split <;> rfl

@[simp] theorem State.presentNext_pending (s : State) : s.presentNext.pending = s.pending.tail := by
  rcases h : s.pending with _ | ⟨q, qs⟩ <;> simp [State.presentNext, h]

@[simp] theorem State.presentNext_samples (s : State) : s.presentNext.samples = s.samples := by
  rcases h : s.pending with _ | ⟨q, qs⟩ <;> simp [State.presentNext, h]

/-- What is on the ports after presenting: the first request waiting, or else what was there. -/
theorem State.presentNext_request (s : State) : s.presentNext.request = s.pending.head?.getD s.request := by
  rcases h : s.pending with _ | ⟨q, qs⟩ <;> simp [State.presentNext, h]

end Sys2Proof.Machine
end

