-- ==== Sys2Proof/Laws/Step.lean ====
section
/-! SUPPORT. What executing, stepping and ticking can do, said once. -/

namespace Sys2Proof.Machine

/-- The answer of an operation to operands: what `F` is for its value of `op` (R16). -/
theorem exec_eq (i : Instr) (s : State) : exec i s = .next (s.answer (blockF ⟨encodeOp i, s.a, s.b⟩)) := by
  cases i <;> rfl

/-- The operation that the ports select answers `F` of the ports (R16, R29). -/
theorem exec_selected (s : State) : exec s.selected s = .next (s.answer (blockF s.request)) := by
  have h : ∀ op : OpSel, encodeOp (decodeOp op) = op := by decide
  rw [exec_eq, State.selected, h]
  rfl

/-- Everything a step does: it presents, answers `F`, and samples. -/
theorem step_eq (s : State) : step s = .next (s.presentNext.answer (blockF s.presentNext.request)).sample := by
  simp [step, exec_selected]

/-- Every answer of `F` is one that R60 and R63 allow. -/
theorem blockF_lawful (q : Request) : LawfulResponse (blockF q) := by
  unfold blockF
  split <;>
    simp [LawfulResponse, dilateAnswer, contractAnswer, combineAnswer, normAnswer, encodeAnswer, decodeAnswer, rsvd7Answer,
      answerOk, raise, Status.code, Cause.status]
  unfold denormAnswer
  split <;> simp [answerOk, raise, Status.code, Cause.status]

/-- A tick that ends the window. -/
theorem State.tick_last (s : State) (h : s.window ≤ 1) : s.tick = s.answer (blockF s.request) := by
  simp [State.tick, h]

/-- A tick inside the window. -/
theorem State.tick_inside (s : State) (h : 1 < s.window) :
    s.tick =
      { s with
        window := s.window - 1
        r := Config.unsettledR s.draws, st := Config.unsettledSt s.draws, draws := s.draws + 1 } := by
  have : ¬ s.window ≤ 1 := by omega
  simp [State.tick, this]

@[simp] theorem State.tick_request (s : State) : s.tick.request = s.request := by
  unfold State.tick
  split <;> rfl

@[simp] theorem State.tick_pending (s : State) : s.tick.pending = s.pending := by
  unfold State.tick
  split <;> rfl

@[simp] theorem State.tick_samples (s : State) : s.tick.samples = s.samples := by
  unfold State.tick
  split <;> rfl

theorem State.tick_window (s : State) : s.tick.window = s.window - 1 := by
  unfold State.tick
  split
  · simp only [State.answer_window]
    omega
  · rfl

@[simp] theorem State.hold_request (n : Nat) (s : State) : (State.hold n s).request = s.request := by
  induction n generalizing s with
  | zero => rfl
  | succ n ih => rw [State.hold, ih, State.tick_request]

/-- `T_SETTLE` is at least one unit of time (entry 6). -/
theorem Config.tSettle_pos : 0 < Config.tSettle := Nat.succ_pos _

end Sys2Proof.Machine
end

