-- ==== Sys2Proof/Laws/Run.lean ====
section
/-! SUPPORT. One step of a run of the host's interface, for any machine and for this one. -/

namespace Sys2Proof.Machine

/-- A run that starts with a step to `t` goes on from `t`. -/
theorem run_succ_of_next (M : Host.Core) (k : Nat) (s t : M.State) (h : M.step s = .next t) :
    M.run (k + 1) s = M.run k t := by
  rw [Host.Core.run, h]

/-- A run of this machine: the first step presents, answers `F` and samples. -/
theorem core_run_succ (k : Nat) (s : State) :
    Sys2Proof.core.run (k + 1) s =
      Sys2Proof.core.run k (s.presentNext.answer (blockF s.presentNext.request)).sample :=
  run_succ_of_next Sys2Proof.core k s _ (step_eq s)

end Sys2Proof.Machine
end

