-- ==== Sys2Proof/Tests/Slice0.lean ====
section
/-! SUPPORT. The model's own tests. Expected values are the spec's: 95_test_vectors.md §2 (named by its table), the corner cases of
the rules, and words written out from the opcode map R32. The witnesses at the end show that the hypotheses of the statements
can be met. -/

namespace Sys2Proof.Tests

open Sys2Proof Sys2Proof.Machine

/-- Power-up with one request waiting. -/
def asked (op : OpSel) (a : Word64) (b : Code) : State := State.reset.issue ⟨op, a, b⟩

/-- The last sample after one step. -/
def sampleOf (s : State) : Option Response :=
  match step s with
  | .next t    => t.samples.getLast?
  | .fault _   => none
  | .refused _ => none

/-! ### Decoding: the words of R32, bit by bit -/

theorem test_decode_dilate : decodeTableWord 8 0b00000000 = some .dilate := by decide
theorem test_decode_contract : decodeTableWord 8 0b00000001 = some .contract := by decide
theorem test_decode_combine : decodeTableWord 8 0b00000010 = some .combine := by decide
theorem test_decode_norm : decodeTableWord 8 0b00000011 = some .norm := by decide
theorem test_decode_encode : decodeTableWord 8 0b00000100 = some .encode := by decide
theorem test_decode_decode : decodeTableWord 8 0b00000101 = some .decode := by decide
theorem test_decode_denorm : decodeTableWord 8 0b00000110 = some .denorm := by decide
theorem test_decode_rsvd7 : decodeTableWord 8 0b00000111 = some .rsvd7 := by decide

/-- A word laid before the step after power-up is the operation it runs. -/
theorem test_fetch_word_runs : sampleOf (State.reset.withFetchWord 8 7) = some ⟨0, 0b01⟩ := by decide

/-! ### One step each: 95_test_vectors.md §2 -/

theorem test_dilate_scenario : sampleOf (asked 0b000 0xAE9C 0) = some ⟨0x44544150, 0b00⟩ := by decide
theorem test_dilate_ignores_high_bits :
    sampleOf (asked 0b000 0xFFFFFFFFFFFFFFFF 0xFFFFFFFF) = some ⟨0x55555555, 0b00⟩ := by decide
theorem test_contract_not_dilated : sampleOf (asked 0b001 0x12345678 0) = some ⟨0x46EC, 0b00⟩ := by decide
theorem test_contract_bit30 : sampleOf (asked 0b001 0x40000000 0) = some ⟨0x8000, 0b00⟩ := by decide
theorem test_combine_loses_top_bit : sampleOf (asked 0b010 0xAAAAAAAA 0x80000001) = some ⟨0xAAAAAAAA, 0b00⟩ := by decide
theorem test_combine_scenario : sampleOf (asked 0b010 0x44544150 0x104) = some ⟨0x44544358, 0b00⟩ := by decide
theorem test_norm_scenario : sampleOf (asked 0b011 0x44544358 0) = some ⟨0x3FD11510D6111511, 0b00⟩ := by decide
theorem test_norm_largest_below_one :
    sampleOf (asked 0b011 0xABCDEF00FFFFFFFE 1) = some ⟨0x3FEFFFFFFFE00000, 0b00⟩ := by decide
theorem test_encode_order : sampleOf (asked 0b100 0x1234 0x5678) = some ⟨0x232C2F90, 0b00⟩ := by decide
theorem test_encode_masks : sampleOf (asked 0b100 0x1FFFF 0x10000) = some ⟨0x55555555, 0b00⟩ := by decide
theorem test_decode_packs_x_low : sampleOf (asked 0b101 0x44544358 0) = some ⟨0x0012AE9C, 0b00⟩ := by decide
theorem test_decode_top_bit : sampleOf (asked 0b101 0x80000000 0) = some ⟨0x80000000, 0b00⟩ := by decide
theorem test_denorm_exact_product :
    sampleOf (asked 0b110 0x3FEFFFFFFFF00000 0) = some ⟨0xFFFFFFFF, 0b00⟩ := by decide
theorem test_denorm_tie_to_even : sampleOf (asked 0b110 0x3FE0000000000000 0) = some ⟨0x80000000, 0b00⟩ := by decide
theorem test_rsvd7_ignores_operands :
    sampleOf (asked 0b111 0xFFFFFFFFFFFFFFFF 0xFFFFFFFF) = some ⟨0, 0b01⟩ := by decide

/-! ### The edges of the key domain and of NORM (R52, R54) -/

theorem test_one_is_accepted : keyAccepted 0x3FF0000000000000 = true := by decide
theorem test_above_one_is_refused : blockF ⟨0b110, 0x3FF0000000000001, 0⟩ = ⟨0, 0b10⟩ := by decide
theorem test_negative_zero_is_accepted : blockF ⟨0b110, 0x8000000000000000, 0⟩ = ⟨0, 0b00⟩ := by decide +kernel
theorem test_negative_subnormal_is_refused : blockF ⟨0b110, 0x8000000000000001, 0⟩ = ⟨0, 0b10⟩ := by decide
theorem test_norm_zero : normKey 0 = 0 := by decide
theorem test_norm_divisor : normKey 0xFFFFFFFF = 0x3FF0000000000000 := by decide
theorem test_norm_one : normKey 1 = 0x3DF0000000100000 := by decide

/-! ### The assembler (R37): `f64` on the spec's own spellings, and what WellFormed refuses -/

theorem test_f64_half : f64Pattern false 5 10 = 0x3FE0000000000000 := by decide +kernel
theorem test_f64_tiny_negative : f64Pattern true 1 (10 ^ 300) = 0x81A56E1FC2F8F359 := by decide +kernel
theorem test_f64_negative_underflow_keeps_the_sign : f64Pattern true 1 (10 ^ 400) = 0x8000000000000000 := by decide +kernel
theorem test_refuses_wide_decimal : (AsmRequest.mk .encode [(.b, .decimal (2 ^ 32))]).wf = false := by decide
theorem test_refuses_wide_hex : (AsmRequest.mk .norm [(.a, .hex (2 ^ 64))]).wf = false := by decide
theorem test_refuses_key_at_b : (AsmRequest.mk .combine [(.b, .f64 ⟨false, 5, 1⟩)]).wf = false := by decide
theorem test_refuses_operand_twice : (AsmRequest.mk .dilate [(.a, .decimal 1), (.a, .decimal 2)]).wf = false := by decide
theorem test_refuses_unbound_name : programWf [] [⟨none, ⟨.norm, [(.a, .hostName "t0")]⟩⟩] = false := by decide
theorem test_accepts_bound_name :
    programWf [] [⟨some "t0", ⟨.encode, [(.a, .decimal 44700), (.b, .decimal 18)]⟩⟩, ⟨none, ⟨.norm, [(.a, .hostName "t0")]⟩⟩]
      = true := by decide

/-! ### Witnesses: the hypotheses of the statements can be met -/

/-- MortonBitPlacement: both ends of `k < 16`. -/
theorem witness_bit_positions : (0 < 16) ∧ (15 < 16) := by decide

/-- OnlyTheSlicesMatter: two states that differ, and only outside DILATE's slices. -/
theorem witness_outside_the_slices :
    (∀ k, k < bitsReadOfA .dilate → (asked 0 0 0).a.getLsbD k = ({ asked 0 0 0 with a := 0x10000 } : State).a.getLsbD k) ∧
      (∀ k, k < bitsReadOfB .dilate → (asked 0 0 0).b.getLsbD k = ({ asked 0 0 0 with b := 1 } : State).b.getLsbD k) := by
  decide

/-- KeyPatternsOrderTheirReals: the largest finite positive pattern and the smallest. -/
theorem witness_finite_patterns :
    (0 : Key).toNat < 2047 * 2 ^ 52 ∧ (0x7FEFFFFFFFFFFFFF : Key).toNat < 2047 * 2 ^ 52 := by decide

/-- NormRoundsTheQuotient: each of its three clauses, and the two codes next to the special ones. -/
theorem witness_norm_clauses :
    (0xFFFFFFFF00000000 : Word64).toNat % 2 ^ 32 = 0 ∧ (0xFFFFFFFF : Word64).toNat % 2 ^ 32 = 4294967295 ∧
      (1 : Word64).toNat % 2 ^ 32 ≠ 0 ∧ (1 : Word64).toNat % 2 ^ 32 ≠ 4294967295 ∧
      (0xFFFFFFFE : Word64).toNat % 2 ^ 32 ≠ 0 ∧ (0xFFFFFFFE : Word64).toNat % 2 ^ 32 ≠ 4294967295 := by decide

/-- NormRangeAndOrder: neighbouring codes, and each clause's code. -/
theorem witness_code_order :
    (0 : Code).toNat < (1 : Code).toNat ∧ (1 : Code) ≠ 0 ∧ (1 : Code).toNat ≠ 4294967295 ∧
      (0xFFFFFFFF : Code).toNat = 4294967295 := by decide

/-- DenormRoundsOrRefuses: both sides of each edge of the domain. -/
theorem witness_denorm_clauses :
    (0x3FF0000000000000 : Key).toNat ≤ 0x3FF0000000000000 ∧ (0 : Key).toNat ≤ 0x3FF0000000000000 ∧
      ¬ ((0x3FF0000000000001 : Key).toNat ≤ 0x3FF0000000000000 ∨ (0x3FF0000000000001 : Key) = 0x8000000000000000#64) ∧
      ¬ ((0x8000000000000001 : Key).toNat ≤ 0x3FF0000000000000 ∨ (0x8000000000000001 : Key) = 0x8000000000000000#64) := by
  decide

/-- SubnormalKeysGiveZeroNonFiniteAreRefused: the largest subnormal, an infinity and a NaN. -/
theorem witness_subnormal_and_non_finite :
    (0x000FFFFFFFFFFFFF : Key).toNat < 2 ^ 52 ∧ keyReal 0x7FF0000000000000 = none ∧ keyReal 0x7FF8000000000000 = none :=
  ⟨by decide, rfl, rfl⟩

/-- DenormToleratesSmallError: −0.0 is accepted, stands for 0, and is nearer than 1/(2D) to code 0. -/
theorem witness_small_error :
    keyAccepted 0x8000000000000000 = true ∧ keyReal 0x8000000000000000 = some 0 ∧
      |(0 : ℚ) - (((0 : Code).toNat : ℕ) : ℚ) / 4294967295| < 1 / (2 * 4294967295) :=
  ⟨by decide, rfl, by norm_num⟩

/-- TenDecimalDigitsRecoverTheCode: code 0, whose text is 0.0000000000 and is read back as +0.0. -/
theorem witness_ten_digits :
    10 ≤ 10 ∧ keyReal (normKey 0) = some 0 ∧ |((0 : ℤ) : ℚ) - 0 * 10 ^ 10| ≤ 1 / 2 ∧
      IsNearestKey (((0 : ℤ) : ℚ) / 10 ^ 10) 0 := by
  refine ⟨le_refl _, rfl, by norm_num, 0, rfl, ?_⟩
  intro K' y _
  simp

/-- StepRunsTheSelectedOperation: nothing waiting, one request waiting, a table word. -/
theorem witness_step_cases :
    State.reset.pending = [] ∧ (asked 0b101 3 0).pending = ⟨0b101, 3, 0⟩ :: [] ∧ decodeTableWord 8 6 = some .denorm := by
  decide

/-- AnswersDoNotDependOnHistory: two states with different histories and one next request. -/
theorem witness_equal_requests :
    (asked 0b110 0 0).nextRequest = ({ asked 0b110 0 0 with samples := [⟨0, 0b10⟩] } : State).nextRequest := by decide

/-- PortsAnswerTheFunction: a different state with the same inputs. -/
theorem witness_same_inputs :
    (State.reset.sample).op = State.reset.op ∧ (State.reset.sample).a = State.reset.a ∧
      (State.reset.sample).b = State.reset.b := ⟨rfl, rfl, rfl⟩

/-- RequestsAreIdempotent: power-up has nothing waiting. -/
theorem witness_nothing_waiting : State.reset.pending = [] := rfl

/-- DenormDomainIsUnitInterval: an accepted pattern and a refused one. -/
theorem witness_key_domain : keyAccepted 0x3FF0000000000000 = true ∧ keyAccepted 0x3FF0000000000001 = false := by decide

/-- InstancesShareNothing: the second of two instances. -/
theorem witness_second_instance : ([State.reset, asked 0b001 3 0] : List State)[1]? = some (asked 0b001 3 0) := rfl

/-- OutputsSettleAfterTheWindow and StepIsARequestHeldLongEnough: power-up, a changed input, a long enough and a too short hold. -/
theorem witness_window :
    State.reset.windowBounded ∧ Config.tSettle ≤ Config.tSettle ∧ 0 < Config.tSettle ∧
      State.reset.request ≠ ⟨0b001, 3, 0⟩ :=
  ⟨le_refl _, le_refl _, Config.tSettle_pos, by decide⟩

/-- StepKeepsInvariant and HostActionsKeepSettledOutputs: a settled state meets the invariant, and a step goes on from it. -/
theorem witness_invariant :
    (State.reset.answer (blockF State.reset.request)).Inv ∧
      ∃ t, step (State.reset.answer (blockF State.reset.request)) = .next t := by
  refine ⟨⟨fun _ => rfl, Nat.zero_le _, ?_⟩, _, step_eq _⟩
  intro x hx
  cases hx

/-- AssemblyPutsOperandsOnPorts: the widest literals of both ports, in both spellings. -/
theorem witness_widest_literals :
    0xFFFFFFFFFFFFFFFF < 2 ^ 64 ∧ 0xFFFFFFFF < 2 ^ 32 ∧
      (Value.decimal 5 = .decimal 5 ∨ Value.decimal 5 = .hex 5) ∧ (Value.hex 5 = .decimal 5 ∨ Value.hex 5 = .hex 5) := by
  decide

/-- P2's line `COMBINE a=dx, b=dy` (95_test_vectors.md §3), with the widest result that fits `b`. -/
def combineLine : AsmRequest := ⟨.combine, [(.a, .hostName "dx"), (.b, .hostName "dy")]⟩

/-- The names that line uses. -/
def combineNames : List (String × Word64) := [("dy", 0xFFFFFFFF), ("dx", 0x55555555)]

/-- WellFormedRequestsAssemble: a request that uses a bound name at each port, with its kept values. -/
theorem witness_well_formed_request :
    combineLine.wf = true ∧ combineLine.namesBound (combineNames.map Prod.fst) = true ∧
      (∀ n k, (Port.b, Value.hostName n) ∈ combineLine.operands → combineNames.lookup n = some k → k.toNat < 2 ^ 32) ∧
      (Port.a, Value.hostName "dx") ∈ combineLine.operands ∧ combineNames.lookup "dx" = some 0x55555555 ∧
      (Port.b, Value.hostName "dy") ∈ combineLine.operands ∧ combineNames.lookup "dy" = some 0xFFFFFFFF := by
  refine ⟨by decide, by decide, ?_, by decide, by decide, by decide, by decide⟩
  intro n k hn hk
  have : n = "dy" := by simpa [combineLine] using hn
  subst this
  cases hk
  decide

/-- WellFormedRequestsAssemble: a request that omits both operands. -/
theorem witness_omitted_operands :
    (AsmRequest.mk .norm []).wf = true ∧ ∀ p v, (p, v) ∉ (AsmRequest.mk .norm []).operands := by
  refine ⟨by decide, ?_⟩
  intro p v h
  cases h

/-- OtherRequestsDoNotAssemble: an operand twice, `f64(0)` at `b`, a name nothing binds, and the least result too wide for `b`. -/
theorem witness_requests_that_do_not_assemble :
    (AsmRequest.mk .dilate [(.a, .decimal 1), (.a, .decimal 2)]).wf = false ∧
      (AsmRequest.mk .combine [(.b, .f64 ⟨false, 0, 0⟩)]).wf = false ∧
      (Port.b, Value.hostName "dy") ∈ combineLine.operands ∧ ([] : List (String × Word64)).lookup "dy" = none ∧
      ([("dy", 0x100000000)] : List (String × Word64)).lookup "dy" = some 0x100000000 ∧
      2 ^ 32 ≤ (0x100000000 : Word64).toNat := by
  decide

/-- BindingKeepsTheResult: a line that assembles. -/
theorem witness_line_assembles :
    assemble [] ⟨.encode, [(.a, .decimal 44700), (.b, .decimal 18)]⟩ = some ⟨0b100, 0xAE9C, 0x12⟩ := by decide

/-- BindingKeepsTheResult: that line's result fits the port `b`. -/
theorem witness_result_fits_b : (blockF ⟨0b100, 0xAE9C, 0x12⟩).r.toNat < 2 ^ 32 := by decide

/-- F64PatternIsNearest: one half does not round beyond the largest finite value, and 2^1024 does. -/
theorem witness_f64_in_range :
    0 < 10 ∧ nearestMagnitude 5 10 < 2047 * 2 ^ 52 ∧ 2047 * 2 ^ 52 ≤ nearestMagnitude (2 ^ 1024) 1 := by decide +kernel

end Sys2Proof.Tests
end

section
/-! PROOFS. The statements of 10_state.md: what a step answers, that nothing earlier reaches the answer, and the invariant that
every step keeps. The state a step ends in gets a name and one lemma per part, and the proofs go through these. -/

namespace Sys2Proof.Machine

/-- The state that a step ends in: the next request presented, its answer `F` on the outputs, the sample taken (R16, R79). -/
def State.afterStep (s : State) : State := (s.presentNext.answer (blockF s.nextRequest)).sample

/-- After presenting, the ports hold the request that the step completes (R79; entry 3 where none waits). -/
theorem State.presentNext_request_eq_nextRequest (s : State) : s.presentNext.request = s.nextRequest :=
  s.presentNext_request

/-- A step always completes, and `afterStep` is where it ends. -/
theorem step_eq_next_afterStep (s : State) : step s = .next s.afterStep := by
  rw [step_eq, State.presentNext_request_eq_nextRequest, State.afterStep]

@[simp] theorem State.afterStep_request (s : State) : s.afterStep.request = s.nextRequest := by
  simp [State.afterStep, State.presentNext_request_eq_nextRequest]

@[simp] theorem State.afterStep_outputs (s : State) : s.afterStep.outputs = blockF s.nextRequest := by
  simp [State.afterStep]

@[simp] theorem State.afterStep_window (s : State) : s.afterStep.window = 0 := by
  simp [State.afterStep]

@[simp] theorem State.afterStep_pending (s : State) : s.afterStep.pending = s.pending.tail := by
  simp [State.afterStep]

@[simp] theorem State.afterStep_samples (s : State) :
    s.afterStep.samples = s.samples ++ [blockF s.nextRequest] := by
  simp [State.afterStep]

/-- A step leaves `F` of its request on the outputs and that request on the inputs, whatever stood on the ports before (R16). -/
theorem State.afterStep_settledOutputs (s : State) : s.afterStep.settledOutputs := by
  intro _
  rw [State.afterStep_outputs, State.afterStep_request]

/-- A step ends with its window over (R75). -/
theorem State.afterStep_windowBounded (s : State) : s.afterStep.windowBounded := by
  rw [State.windowBounded, State.afterStep_window]
  exact Nat.zero_le _

/-- The one sample that a step adds is an answer of `F`, so it is lawful where the earlier ones are (R60, R63). -/
theorem State.afterStep_samplesLawful (s : State) (h : s.samplesLawful) : s.afterStep.samplesLawful := by
  intro x hx
  rw [State.afterStep_samples, List.mem_append, List.mem_singleton] at hx
  rcases hx with hearlier | rfl
  · exact h x hearlier
  · exact blockF_lawful _

/-- Settles O39: a step settles its own outputs and ends its own window; only the samples before it lean on the invariant. -/
theorem stepKeepsInvariant : Obligations.StepKeepsInvariant := by
  intro s t ⟨_, _, hsamples⟩ hstep
  rw [step_eq_next_afterStep] at hstep
  obtain rfl : s.afterStep = t := Host.Outcome.next.inj hstep
  exact ⟨s.afterStep_settledOutputs, s.afterStep_windowBounded, s.afterStep_samplesLawful hsamples⟩

/-- States with the same inputs have the same request on their ports (R16). -/
theorem State.request_congr {s s' : State} (hop : s'.op = s.op) (ha : s'.a = s.a) (hb : s'.b = s.b) :
    s'.request = s.request := by
  rw [State.request, State.request, hop, ha, hb]

/-- Settles O30: the operation selected answers `F` of the request on the ports, and equal inputs are one request (R17). -/
theorem portsAnswerTheFunction : Obligations.PortsAnswerTheFunction := by
  intro s
  refine ⟨_, exec_selected s, State.answer_outputs _ _, fun s' hop ha hb => ⟨_, exec_selected s', ?_⟩⟩
  rw [State.answer_outputs, State.answer_outputs, State.request_congr hop ha hb]

/-- Settles O31, field by field of the state that the step ends in. -/
theorem stepAnswersTheFunction : Obligations.StepAnswersTheFunction := fun s =>
  ⟨s.afterStep, step_eq_next_afterStep s, s.afterStep_outputs, s.afterStep_request, s.afterStep_window,
    s.afterStep_pending, s.afterStep_samples⟩

/-- Settles O32: the outputs after a step are `F` of the request it completes, and of nothing else (R12, R67). -/
theorem answersDoNotDependOnHistory : Obligations.AnswersDoNotDependOnHistory := by
  intro s s' h
  refine ⟨s.afterStep, s'.afterStep, step_eq_next_afterStep s, step_eq_next_afterStep s', ?_⟩
  rw [State.afterStep_outputs, State.afterStep_outputs, h]

end Sys2Proof.Machine
end

section
/-! PROOFS. The statements of 20_memory.md: which operation a step runs, and that completing a request again changes nothing but
the host's record. Presenting the next request gets one equation per case of what waits; a state that is already settled on
its request is left alone by that request's answer. -/

namespace Sys2Proof.Machine

/-- With nothing waiting, presenting leaves the ports alone (entry 3). -/
theorem State.presentNext_of_nothing_waiting {s : State} (h : s.pending = []) : s.presentNext = s := by
  rw [State.presentNext, h]

/-- With a request waiting, presenting takes it off the sequence and drives it (R79). -/
theorem State.presentNext_of_waiting {s : State} {q : Request} {qs : List Request} (h : s.pending = q :: qs) :
    s.presentNext = { s with pending := qs }.drive q := by
  rw [State.presentNext, h]

/-- A table word laid before the step is the request that gets driven (entry 8). -/
theorem State.presentNext_withFetchWord (s : State) (nbits w : Nat) :
    (s.withFetchWord nbits w).presentNext = s.drive ⟨opOfWord nbits w, s.a, s.b⟩ := rfl

/-- The operation selected is the one named by the request on the ports (R29). -/
theorem State.selected_eq_decodeOp_request (s : State) : s.selected = decodeOp s.request.op := rfl

/-- Once a request is driven, its `op` selects the operation, whatever stood on the ports before (R29). -/
theorem State.drive_selected (s : State) (q : Request) : (s.drive q).selected = decodeOp q.op := by
  rw [State.selected_eq_decodeOp_request, State.drive_request]

/-- A step is the selected operation on the ports after presenting, and then a sample (R29, R79). -/
theorem step_runs_selected (s : State) :
    ∃ t, exec s.presentNext.selected s.presentNext = .next t ∧ step s = .next t.sample :=
  ⟨_, exec_selected s.presentNext, step_eq s⟩

/-- Settles O29: in each case the step runs what presenting has put on the ports. -/
theorem stepRunsTheSelectedOperation : Obligations.StepRunsTheSelectedOperation := by
  refine ⟨fun s hnone => ?_, fun s q qs hwaiting => ?_, fun s nbits w i hword => ?_⟩
  · have h := step_runs_selected s
    rwa [State.presentNext_of_nothing_waiting hnone] at h
  · have h := step_runs_selected s
    rwa [State.presentNext_of_waiting hwaiting, State.drive_selected] at h
  · obtain rfl : decodeOp (opOfWord nbits w) = i := Option.some.inj hword
    have h := step_runs_selected (s.withFetchWord nbits w)
    rwa [State.presentNext_withFetchWord, State.drive_selected] at h

/-- Answering with what the outputs show already, when the window is over, changes nothing (R75). -/
theorem State.answer_outputs_of_window_zero {s : State} (h : s.window = 0) : s.answer s.outputs = s := by
  rw [State.answer, ← h]
  rfl

/-- On settled outputs with nothing waiting, a step only samples (R23; entry 3). -/
theorem step_of_settled_nothing_waiting {s : State} (hpending : s.pending = []) (hwindow : s.window = 0)
    (hsettled : s.settledOutputs) : step s = .next s.sample := by
  rw [step_eq, State.presentNext_of_nothing_waiting hpending, ← hsettled hwindow,
    State.answer_outputs_of_window_zero hwindow]

/-- Settles O33: the first step leaves its request settled on the ports, so the second one finds nothing to do but sample. -/
theorem requestsAreIdempotent : Obligations.RequestsAreIdempotent := by
  intro s hpending
  have hstill : s.afterStep.pending = [] := by rw [State.afterStep_pending, hpending, List.tail_nil]
  exact ⟨s.afterStep, step_eq_next_afterStep s,
    step_of_settled_nothing_waiting hstill s.afterStep_window s.afterStep_settledOutputs⟩

end Sys2Proof.Machine
end

section
/-! PROOFS. The statements of 30_encoding.md about the opcode map and the operand slices: the map in both directions, the bits of
a port that an operation reads and of `r` that it drives, and ENCODE as three requests (R31 to R34, R38). -/

namespace Sys2Proof.Machine

/-! ### The opcode map -/

/-- The per-operation laws of the opcode map, as one statement for all of them. -/
theorem spelling_statement (i : Instr) : Laws.Spelling.Statement i := by
  cases i with
  | dilate => exact Laws.Spelling.dilate
  | contract => exact Laws.Spelling.contract
  | combine => exact Laws.Spelling.combine
  | norm => exact Laws.Spelling.norm
  | encode => exact Laws.Spelling.encode
  | decode => exact Laws.Spelling.decode
  | denorm => exact Laws.Spelling.denorm
  | rsvd7 => exact Laws.Spelling.rsvd7

/-- The padded table word of an operation's encoding decodes to it (R31, R32). -/
theorem decodeTableWord_encodeOp (i : Instr) : decodeTableWord 8 (encodeOp i).toNat = some i :=
  (spelling_statement i).1

/-- A mnemonic reads back as its operation (R37). -/
theorem instrOfMnemonic_mnemonicOf (i : Instr) : instrOfMnemonic (mnemonicOf i) = some i :=
  (spelling_statement i).2

/-- The eight bits of a padded table word hold the three bits of `op` unchanged (R31). -/
theorem opOfWord_toNat_self (op : OpSel) : opOfWord 8 op.toNat = op := by
  apply BitVec.eq_of_toNat_eq
  rw [opOfWord_toNat]
  omega

theorem decodeOp_encodeOp (i : Instr) : decodeOp (encodeOp i) = i := by
  have h := decodeTableWord_encodeOp i
  rw [decodeTableWord_eq, opOfWord_toNat_self] at h
  exact Option.some.inj h

/-- No value of `op` is undecoded and none is shared: eight values, eight operations (R34). -/
theorem encodeOp_decodeOp : ∀ op : OpSel, encodeOp (decodeOp op) = op := by decide

/-- Settles O1: each row's word is the encoding of the row's operation. -/
theorem opcodeMapIsTheTable : Obligations.OpcodeMapIsTheTable :=
  ⟨decodeTableWord_encodeOp .dilate, decodeTableWord_encodeOp .contract, decodeTableWord_encodeOp .combine,
    decodeTableWord_encodeOp .norm, decodeTableWord_encodeOp .encode, decodeTableWord_encodeOp .decode,
    decodeTableWord_encodeOp .denorm, decodeTableWord_encodeOp .rsvd7⟩

/-- Settles O2, operation by operation one way and value by value the other. -/
theorem decodeAndEncodeAreInverse : Obligations.DecodeAndEncodeAreInverse :=
  ⟨decodeOp_encodeOp, encodeOp_decodeOp⟩

/-! ### Slices read and bits driven -/

/-! What `F` answers, one equation per operation (R16, R33). -/

theorem blockF_dilate (a : Word64) (b : Code) :
    blockF ⟨encodeOp .dilate, a, b⟩ = answerOk (zextCode (dilate16 (coordOfA a))) := rfl

theorem blockF_contract (a : Word64) (b : Code) :
    blockF ⟨encodeOp .contract, a, b⟩ = answerOk (zextCoord (contract32 (codeOfA a))) := rfl

theorem blockF_combine (a : Word64) (b : Code) :
    blockF ⟨encodeOp .combine, a, b⟩ = answerOk (zextCode (mortonCombine (codeOfA a) (codeOfB b))) := rfl

theorem blockF_norm (a : Word64) (b : Code) :
    blockF ⟨encodeOp .norm, a, b⟩ = answerOk (normKey (codeOfA a)) := rfl

theorem blockF_encode (a : Word64) (b : Code) :
    blockF ⟨encodeOp .encode, a, b⟩ = answerOk (zextCode (mortonEncode (coordOfA a) (coordOfB b))) := rfl

theorem blockF_decode (a : Word64) (b : Code) :
    blockF ⟨encodeOp .decode, a, b⟩ = answerOk (packPair (mortonX (codeOfA a)) (mortonY (codeOfA a))) := rfl

theorem blockF_denorm (a : Word64) (b : Code) :
    blockF ⟨encodeOp .denorm, a, b⟩ =
      if keyAccepted (keyOfA a) then answerOk (zextCode (denormCode (keyOfA a))) else raise .keyDomain := rfl

theorem blockF_rsvd7 (a : Word64) (b : Code) : blockF ⟨encodeOp .rsvd7, a, b⟩ = raise .illegalOp := rfl

@[simp] theorem answerOk_r (v : Word64) : (answerOk v).r = v := rfl

/-- Values that agree on their low `n` bits have the same low slice. -/
theorem extractLsb'_zero_congr {w n : Nat} {x y : BitVec w} (h : ∀ k, k < n → x.getLsbD k = y.getLsbD k) :
    x.extractLsb' 0 n = y.extractLsb' 0 n := by
  apply BitVec.eq_of_getLsbD_eq
  intro k hk
  simp [hk, h k hk]

/-- An operation's answer depends on no bit of `a` or `b` outside the slices it reads (R21, R33). -/
theorem blockF_congr_of_slices (i : Instr) {a a' : Word64} {b b' : Code}
    (ha : ∀ k, k < bitsReadOfA i → a.getLsbD k = a'.getLsbD k)
    (hb : ∀ k, k < bitsReadOfB i → b.getLsbD k = b'.getLsbD k) :
    blockF ⟨encodeOp i, a, b⟩ = blockF ⟨encodeOp i, a', b'⟩ := by
  cases i with
  | dilate =>
    have hv : coordOfA a = coordOfA a' := extractLsb'_zero_congr ha
    rw [blockF_dilate, blockF_dilate, hv]
  | contract =>
    have hv : codeOfA a = codeOfA a' := extractLsb'_zero_congr ha
    rw [blockF_contract, blockF_contract, hv]
  | combine =>
    have hx : codeOfA a = codeOfA a' := extractLsb'_zero_congr ha
    have hy : codeOfB b = codeOfB b' := BitVec.eq_of_getLsbD_eq hb
    rw [blockF_combine, blockF_combine, hx, hy]
  | norm =>
    have hv : codeOfA a = codeOfA a' := extractLsb'_zero_congr ha
    rw [blockF_norm, blockF_norm, hv]
  | encode =>
    have hx : coordOfA a = coordOfA a' := extractLsb'_zero_congr ha
    have hy : coordOfB b = coordOfB b' := extractLsb'_zero_congr hb
    rw [blockF_encode, blockF_encode, hx, hy]
  | decode =>
    have hv : codeOfA a = codeOfA a' := extractLsb'_zero_congr ha
    rw [blockF_decode, blockF_decode, hv]
  | denorm =>
    have hK : keyOfA a = keyOfA a' := BitVec.eq_of_getLsbD_eq ha
    rw [blockF_denorm, blockF_denorm, hK]
  | rsvd7 => rw [blockF_rsvd7, blockF_rsvd7]

/-- A 32-bit result leaves the upper half of `r` 0 (R33). -/
theorem getLsbD_zextCode_of_ge (c : Code) {k : Nat} (hk : 32 ≤ k) : (zextCode c).getLsbD k = false := by
  rw [zextCode, BitVec.getLsbD_setWidth, BitVec.getLsbD_of_ge c k hk, Bool.and_false]

/-- A 16-bit result leaves bits 16 to 63 of `r` 0 (R33). -/
theorem getLsbD_zextCoord_of_ge (c : Coord) {k : Nat} (hk : 16 ≤ k) : (zextCoord c).getLsbD k = false := by
  rw [zextCoord, BitVec.getLsbD_setWidth, BitVec.getLsbD_of_ge c k hk, Bool.and_false]

/-- Bits of `r` that an operation does not drive are 0, in an error too (R33, R63). -/
theorem blockF_r_undriven (i : Instr) (a : Word64) (b : Code) {k : Nat} (hk : bitsDrivenOfR i ≤ k) :
    (blockF ⟨encodeOp i, a, b⟩).r.getLsbD k = false := by
  cases i with
  | dilate => exact getLsbD_zextCode_of_ge _ hk
  | contract => exact getLsbD_zextCoord_of_ge _ hk
  | combine => exact getLsbD_zextCode_of_ge _ hk
  | norm => exact BitVec.getLsbD_of_ge _ k hk
  | encode => exact getLsbD_zextCode_of_ge _ hk
  | decode => exact getLsbD_zextCode_of_ge _ hk
  | denorm =>
    rw [blockF_denorm]
    split
    · exact getLsbD_zextCode_of_ge _ hk
    · exact BitVec.getLsbD_zero
  | rsvd7 => exact BitVec.getLsbD_zero

/-- Settles O28: both states are answered by `F` of their operands, which reads the slices only. -/
theorem onlyTheSlicesMatter : Obligations.OnlyTheSlicesMatter := by
  intro i s s' ha hb
  refine ⟨_, _, exec_eq i s, exec_eq i s', ?_, fun k hk => ?_⟩
  · rw [State.answer_outputs, State.answer_outputs, blockF_congr_of_slices i ha hb]
  · rw [State.answer_r, blockF_r_undriven i s.a s.b hk]

/-! ### ENCODE as three requests -/

/-- A 32-bit result put on `a` is read back whole by COMBINE (R33). -/
theorem codeOfA_zextCode (c : Code) : codeOfA (zextCode c) = c := by
  apply BitVec.eq_of_getLsbD_eq
  intro k hk
  simp [codeOfA, zextCode, hk, show k < 64 by omega]

/-- A 32-bit result put on `b` is read back whole by COMBINE (R33). -/
theorem codeOfB_setWidth_zextCode (c : Code) : codeOfB ((zextCode c).setWidth 32) = c := by
  rw [codeOfB, zextCode, BitVec.setWidth_setWidth_of_le c (by decide), BitVec.setWidth_eq]

/-- DILATE reads from `b`'s value put on `a` what ENCODE reads from `b` (R33). -/
theorem coordOfA_setWidth (b : Code) : coordOfA (b.setWidth 64) = coordOfB b := by
  apply BitVec.eq_of_getLsbD_eq
  intro k hk
  simp [coordOfA, coordOfB, hk, show k < 64 by omega]

/-- COMBINE of two dilated coordinates is their Morton Code (R38). -/
theorem mortonCombine_dilate16 (x y : Coord) : mortonCombine (dilate16 x) (dilate16 y) = mortonEncode x y := rfl

/-- Settles O15: the third request finds the two dilated coordinates on its ports. -/
theorem encodeIsDilateDilateCombine : Obligations.EncodeIsDilateDilateCombine := by
  intro s
  refine ⟨_, _, _, _, exec_eq _ _, exec_eq _ _, exec_eq _ _, exec_eq _ _, ?_⟩
  simp only [State.answer_outputs, State.answer_r, blockF_dilate, blockF_combine, blockF_encode, answerOk_r,
    codeOfA_zextCode, codeOfB_setWidth_zextCode, coordOfA_setWidth, mortonCombine_dilate16]

end Sys2Proof.Machine
end

section
/-! PROOFS. The statements of 30_encoding.md about the assembler (R37; entries 8, 11, 12): what a value puts on its port, which
requests assemble and to what, and that a binding keeps its request's `r`. -/

namespace Sys2Proof.Machine

/-! ### What a value puts on its port -/

/-- The value `v` stands for `n` at port `p`: it may stand there, a name in it is bound, and `n` fits the port (R37, entry 12). -/
structure Puts (names : List (String × Word64)) (p : Port) (v : Value) (n : Nat) : Prop where
  fits : v.fits p = true
  value : valueOf names v = some n
  lt_width : n < 2 ^ p.width

/-- A decimal or hex literal stands for itself (R37). -/
theorem puts_literal (names : List (String × Word64)) (p : Port) {v : Value} {n : Nat} (hn : n < 2 ^ p.width)
    (hv : v = .decimal n ∨ v = .hex n) : Puts names p v n := by
  rcases hv with rfl | rfl
  · exact ⟨by simpa [Value.fits] using hn, rfl, hn⟩
  · exact ⟨by simpa [Value.fits] using hn, rfl, hn⟩

/-- `f64(q)` stands for its pattern, at `a` (R37). -/
theorem puts_f64 (names : List (String × Word64)) (q : DecimalReal) :
    Puts names .a (.f64 q) (f64Pattern q.negative q.digits (10 ^ q.scale)).toNat :=
  ⟨rfl, rfl, BitVec.isLt _⟩

/-- What a name stands for is the `r` kept under it (R37). -/
theorem valueOf_hostName {names : List (String × Word64)} {n : String} {k : Word64} (hk : names.lookup n = some k) :
    valueOf names (.hostName n) = some k.toNat := by
  rw [valueOf, hk, Option.map_some]

theorem puts_hostName {names : List (String × Word64)} (p : Port) {n : String} {k : Word64}
    (hk : names.lookup n = some k) (hlt : k.toNat < 2 ^ p.width) : Puts names p (.hostName n) k.toNat :=
  ⟨rfl, valueOf_hostName hk, hlt⟩

/-- Every kept `r` fits the 64-bit port. -/
theorem puts_hostName_at_a {names : List (String × Word64)} {n : String} {k : Word64} (hk : names.lookup n = some k) :
    Puts names .a (.hostName n) k.toNat :=
  puts_hostName .a hk k.isLt

/-- An operand given once puts its value on its port (R37). -/
theorem Puts.portValue_eq {names : List (String × Word64)} {l : List (Port × Value)} {p : Port} {v : Value} {n : Nat}
    (h : Puts names p v n) (hl : (l.map Prod.fst).Nodup) (hmem : (p, v) ∈ l) : portValue names l p = some n :=
  portValue_of_mem names l p v n hl hmem h.value h.lt_width

/-! ### Requests written out -/

/-- What well formed asks: no port twice, and every value fits its port (entry 12). -/
theorem asmRequest_wf_iff (q : AsmRequest) :
    q.wf = true ↔ (q.operands.map Prod.fst).Nodup ∧ ∀ o ∈ q.operands, o.2.fits o.1 = true := by
  rw [AsmRequest.wf, Bool.and_eq_true, decide_eq_true_iff, List.all_eq_true]

/-- A request that is not well formed does not assemble (entry 12). -/
theorem assemble_of_not_wf (names : List (String × Word64)) (q : AsmRequest) (h : q.wf = false) :
    assemble names q = none := by
  simp [assemble, h]

/-- No operands: both ports are 0 (R37). -/
theorem assemble_no_operands (names : List (String × Word64)) (i : Instr) :
    assemble names ⟨i, []⟩ = some ⟨encodeOp i, 0, 0⟩ :=
  assemble_of_portValues names ⟨i, []⟩ 0 0 rfl rfl rfl

section Written

variable {names : List (String × Word64)} {v w : Value} {x y : Nat}

/-- One operand, at `a`: the other port is 0 (R37). -/
theorem assemble_at_a (i : Instr) (hv : Puts names .a v x) :
    assemble names ⟨i, [(.a, v)]⟩ = some ⟨encodeOp i, BitVec.ofNat 64 x, 0⟩ := by
  have hwf : (AsmRequest.mk i [(.a, v)]).wf = true := by simp [asmRequest_wf_iff, hv.fits]
  exact assemble_of_portValues names _ x 0 hwf (hv.portValue_eq (operands_nodup_of_wf _ hwf) (by simp))
    (portValue_omitted names _ .b (by simp))

/-- One operand, at `b`: the other port is 0 (R37). -/
theorem assemble_at_b (i : Instr) (hw : Puts names .b w y) :
    assemble names ⟨i, [(.b, w)]⟩ = some ⟨encodeOp i, 0, BitVec.ofNat 32 y⟩ := by
  have hwf : (AsmRequest.mk i [(.b, w)]).wf = true := by simp [asmRequest_wf_iff, hw.fits]
  exact assemble_of_portValues names _ 0 y hwf (portValue_omitted names _ .a (by simp))
    (hw.portValue_eq (operands_nodup_of_wf _ hwf) (by simp))

/-- Both operands, wherever they stand in a well-formed request (R37). -/
theorem assemble_of_mem {q : AsmRequest} (hwf : q.wf = true) (hv : Puts names .a v x) (hvmem : (.a, v) ∈ q.operands)
    (hw : Puts names .b w y) (hwmem : (.b, w) ∈ q.operands) :
    assemble names q = some ⟨encodeOp q.mnemonic, BitVec.ofNat 64 x, BitVec.ofNat 32 y⟩ :=
  assemble_of_portValues names q x y hwf (hv.portValue_eq (operands_nodup_of_wf q hwf) hvmem)
    (hw.portValue_eq (operands_nodup_of_wf q hwf) hwmem)

/-- Two operands, in either order (R37). -/
theorem assemble_at_both (i : Instr) (hv : Puts names .a v x) (hw : Puts names .b w y) :
    assemble names ⟨i, [(.a, v), (.b, w)]⟩ = some ⟨encodeOp i, BitVec.ofNat 64 x, BitVec.ofNat 32 y⟩ ∧
      assemble names ⟨i, [(.b, w), (.a, v)]⟩ = some ⟨encodeOp i, BitVec.ofNat 64 x, BitVec.ofNat 32 y⟩ := by
  have hfits := And.intro hv.fits hw.fits
  exact ⟨assemble_of_mem (by simp [asmRequest_wf_iff, hfits]) hv (by simp) hw (by simp),
    assemble_of_mem (by simp [asmRequest_wf_iff, hfits]) hv (by simp) hw (by simp)⟩

end Written

/-- A spelling names an operation exactly when it is its mnemonic (R37). -/
theorem instrOfMnemonic_eq_some_iff (m : String) (i : Instr) : instrOfMnemonic m = some i ↔ mnemonicOf i = m := by
  constructor
  · intro h
    simpa using List.find?_some h
  · rintro rfl
    exact instrOfMnemonic_mnemonicOf i

/-- Settles O42: literals and `f64` stand for their values, so each spelling is one of the requests written out. -/
theorem assemblyPutsOperandsOnPorts : Obligations.AssemblyPutsOperandsOnPorts := by
  refine ⟨assemble_no_operands, fun names i x v hx hv => ?_, fun names i y w hy hw => ?_,
    fun names i x y v w hx hy hv hw => ?_, fun names i q => ?_, fun names i q y w hy hw => ?_,
    instrOfMnemonic_eq_some_iff⟩
  · exact assemble_at_a i (puts_literal names .a hx hv)
  · exact assemble_at_b i (puts_literal names .b hy hw)
  · exact assemble_at_both i (puts_literal names .a hx hv) (puts_literal names .b hy hw)
  · simpa using assemble_at_a i (puts_f64 names q)
  · simpa using assemble_at_both i (puts_f64 names q) (puts_literal names .b hy hw)

/-! ### Well-formed requests -/

/-- A name among the bound ones has a kept `r`. -/
theorem exists_lookup_of_contains {names : List (String × Word64)} {n : String}
    (h : (names.map Prod.fst).contains n = true) : ∃ k, names.lookup n = some k := by
  rw [← Option.ne_none_iff_exists']
  intro hnone
  rw [List.lookup_eq_none_iff] at hnone
  obtain ⟨e, he, rfl⟩ := List.mem_map.1 (List.contains_iff_mem.1 h)
  simpa using hnone e he

/-- A name that a request uses is bound, where all its names are. -/
theorem exists_lookup_of_namesBound {names : List (String × Word64)} {q : AsmRequest} {p : Port} {n : String}
    (hbound : q.namesBound (names.map Prod.fst) = true) (hmem : (p, .hostName n) ∈ q.operands) :
    ∃ k, names.lookup n = some k := by
  rw [AsmRequest.namesBound, List.all_eq_true] at hbound
  exact exists_lookup_of_contains (hbound _ hmem)

/-- A value that fits its port and whose name, if it is one, is bound to an `r` that fits too, stands for some number there. -/
theorem exists_puts {names : List (String × Word64)} {p : Port} {v : Value} (hfits : v.fits p = true)
    (hname : ∀ n, v = .hostName n → ∃ k, names.lookup n = some k ∧ k.toNat < 2 ^ p.width) :
    ∃ n, Puts names p v n := by
  cases v with
  | decimal n => exact ⟨n, puts_literal names p (by simpa [Value.fits] using hfits) (.inl rfl)⟩
  | hex n => exact ⟨n, puts_literal names p (by simpa [Value.fits] using hfits) (.inr rfl)⟩
  | f64 q =>
    obtain rfl : p = .a := by simpa [Value.fits] using hfits
    exact ⟨_, puts_f64 names q⟩
  | hostName n =>
    obtain ⟨k, hk, hlt⟩ := hname n rfl
    exact ⟨_, puts_hostName p hk hlt⟩

/-- Each port of a well-formed request gets a value, where names at that port are bound to results that fit it. -/
theorem exists_portValue {names : List (String × Word64)} {q : AsmRequest} (p : Port) (hwf : q.wf = true)
    (hname : ∀ n, (p, .hostName n) ∈ q.operands → ∃ k, names.lookup n = some k ∧ k.toNat < 2 ^ p.width) :
    ∃ n, portValue names q.operands p = some n := by
  obtain ⟨hnodup, hfits⟩ := (asmRequest_wf_iff q).1 hwf
  by_cases hgiven : ∃ v, (p, v) ∈ q.operands
  · obtain ⟨v, hmem⟩ := hgiven
    obtain ⟨n, hn⟩ := exists_puts (hfits _ hmem) (fun n hv => hname n (hv ▸ hmem))
    exact ⟨n, hn.portValue_eq hnodup hmem⟩
  · exact ⟨0, portValue_omitted names _ p (fun v hmem => hgiven ⟨v, hmem⟩)⟩

/-- Settles O43: both ports get a value, and what a port holds is what its operand, or its omission, puts there. -/
theorem wellFormedRequestsAssemble : Obligations.WellFormedRequestsAssemble := by
  intro names q hwf hbound hnarrow
  have hnodup := operands_nodup_of_wf q hwf
  obtain ⟨x, hx⟩ := exists_portValue (names := names) .a hwf fun n hmem => by
    obtain ⟨k, hk⟩ := exists_lookup_of_namesBound hbound hmem
    exact ⟨k, hk, k.isLt⟩
  obtain ⟨y, hy⟩ := exists_portValue (names := names) .b hwf fun n hmem => by
    obtain ⟨k, hk⟩ := exists_lookup_of_namesBound hbound hmem
    exact ⟨k, hk, hnarrow n k hmem hk⟩
  refine ⟨_, assemble_of_portValues names q x y hwf hx hy, rfl, fun n k hmem hk => ?_, fun n k hmem hk => ?_,
    fun hnone => ?_, fun hnone => ?_⟩
  · obtain rfl : x = k.toNat :=
      Option.some.inj (hx.symm.trans ((puts_hostName_at_a hk).portValue_eq hnodup hmem))
    rw [BitVec.ofNat_toNat, BitVec.setWidth_eq]
  · have hlt := hnarrow n k hmem hk
    obtain rfl : y = k.toNat :=
      Option.some.inj (hy.symm.trans ((puts_hostName .b hk hlt).portValue_eq hnodup hmem))
    exact Nat.mod_eq_of_lt hlt
  · obtain rfl : x = 0 := Option.some.inj (hx.symm.trans (portValue_omitted names _ .a hnone))
    rfl
  · obtain rfl : y = 0 := Option.some.inj (hy.symm.trans (portValue_omitted names _ .b hnone))
    rfl

/-! ### Requests that do not assemble -/

/-- In a well-formed request, an operand without a value for its port is enough to stop it; one not well formed is stopped
already (entry 12). -/
theorem assemble_of_nodup_portValue_none (names : List (String × Word64)) (q : AsmRequest) (p : Port)
    (h : (q.operands.map Prod.fst).Nodup → portValue names q.operands p = none) : assemble names q = none := by
  by_cases hwf : q.wf = true
  · exact assemble_of_no_portValue names q p (h (operands_nodup_of_wf q hwf))
  · exact assemble_of_not_wf names q (Bool.eq_false_of_not_eq_true hwf)

/-- Settles O47: a name that nothing binds has no value, and a result of 2^32 or more is too wide for `b`. -/
theorem otherRequestsDoNotAssemble : Obligations.OtherRequestsDoNotAssemble := by
  intro names q
  refine ⟨assemble_of_not_wf names q, fun p n hmem hnone => ?_, fun n k hmem hk hwide => ?_⟩
  · have hvalue : valueOf names (.hostName n) = none := by rw [valueOf, hnone, Option.map_none]
    exact assemble_of_nodup_portValue_none names q p fun hnodup =>
      portValue_unbound names q.operands p _ hnodup hmem hvalue
  · exact assemble_of_nodup_portValue_none names q .b fun hnodup =>
      portValue_too_wide names q.operands .b _ k.toNat hnodup hmem (valueOf_hostName hk) hwide

/-! ### Bindings -/

/-- The session after a bound line: the line's request goes first and completes, and its `r` is kept (R37, R79; entry 8). -/
theorem Session.runLine_bound (h : Session) (n : String) {l : AsmRequest} {q : Request}
    (hl : assemble h.names l = some q) :
    h.runLine ⟨some n, l⟩ =
      some ⟨(n, (blockF q).r) :: h.names, { h.machine with pending := q :: h.machine.pending }.afterStep⟩ := by
  simp only [Session.runLine, hl, step_eq_next_afterStep]
  rfl

/-- Settles O44: the new name comes first among the names, so a later operand finds it. -/
theorem bindingKeepsTheResult : Obligations.BindingKeepsTheResult := by
  intro h n l q hl
  have hkept : ((n, (blockF q).r) :: h.names).lookup n = some (blockF q).r := List.lookup_cons_self
  refine ⟨_, h.runLine_bound n hl, hkept, State.afterStep_outputs _, fun i => ?_, fun i hlt => ?_⟩
  · simpa using assemble_at_a i (puts_hostName_at_a hkept)
  · simpa using assemble_at_b i (puts_hostName .b hkept hlt)

end Sys2Proof.Machine
end

section
/-! PROOFS. The statement of 30_encoding.md about `f64` (R37; entry 11). Finite patterns are compared in units of 2^-1074, the
weight of the smallest subnormal: there every magnitude is a whole number, the rounding of `f64` is to a multiple of a power
of two, and a magnitude that is no such multiple lies below the bottom of the result's binade. -/

namespace Sys2Proof.Machine

/-! ### Magnitudes in units of 2^-1074 -/

/-- The magnitude of a finite pattern in units of 2^-1074 (R51). -/
def keyUnits (K : Key) : Nat :=
  if (keyExponent K).toNat = 0 then (keyFraction K).toNat
  else (2 ^ 52 + (keyFraction K).toNat) * 2 ^ ((keyExponent K).toNat - 1)

/-- The real of a finite pattern is its magnitude with its sign (R51). -/
theorem keyReal_eq_keyUnits (K : Key) (h : (keyExponent K).toNat ≠ 2047) :
    keyReal K = some (signFactor (keySign K) * (keyUnits K / 2 ^ 1074)) := by
  rw [keyReal_of_finite K h, keyUnits]
  congr 2
  split
  · rfl
  · next hE =>
    obtain ⟨e, he⟩ := Nat.exists_eq_succ_of_ne_zero hE
    rw [he, Nat.succ_eq_add_one, Nat.add_sub_cancel, pow_succ 2 1074, pow_succ 2 e]
    generalize (2 : ℚ) ^ 1074 = scale
    push_cast
    ring

/-- A magnitude is a multiple of `2^t`, or lies below the least one whose 53-bit significand has that unit. -/
theorem two_pow_dvd_keyUnits_or_lt (K : Key) (t : Nat) : 2 ^ t ∣ keyUnits K ∨ keyUnits K < 2 ^ 52 * 2 ^ t := by
  have hF := (keyFraction K).isLt
  rw [keyUnits]
  split
  · exact .inr (hF.trans_le (Nat.le_mul_of_pos_right _ (by positivity)))
  · rcases le_or_gt t ((keyExponent K).toNat - 1) with ht | ht
    · exact .inl (Dvd.dvd.mul_left (pow_dvd_pow 2 ht) _)
    · refine .inr ?_
      calc (2 ^ 52 + (keyFraction K).toNat) * 2 ^ ((keyExponent K).toNat - 1)
          < (2 ^ 52 * 2) * 2 ^ ((keyExponent K).toNat - 1) := by gcongr; omega
        _ = 2 ^ 52 * 2 ^ ((keyExponent K).toNat - 1 + 1) := by rw [pow_succ]; ring
        _ ≤ 2 ^ 52 * 2 ^ t := by gcongr <;> omega

/-- The magnitude of the pattern that the exponent trick of `nearestMagnitude` writes, a carry out of the significand included. -/
theorem keyUnits_of_fields {K : Key} {t m : Nat} (hE : (keyExponent K).toNat = (t * 2 ^ 52 + m) / 2 ^ 52)
    (hF : (keyFraction K).toNat = (t * 2 ^ 52 + m) % 2 ^ 52) (hm : m ≤ 2 ^ 53) (ht : t = 0 ∨ 2 ^ 52 ≤ m) :
    keyUnits K = m * 2 ^ t := by
  rw [keyUnits, hE, hF]
  rcases Nat.lt_or_ge m (2 ^ 52) with hlow | hlow
  · -- subnormal or zero
    obtain rfl : t = 0 := by omega
    rw [if_pos (by omega)]
    omega
  · rcases Nat.lt_or_ge m (2 ^ 53) with hhigh | hhigh
    · rw [if_neg (by omega), show (t * 2 ^ 52 + m) / 2 ^ 52 - 1 = t by omega]
      congr 1
      omega
    · -- the significand rounded up to the next binade
      obtain rfl : m = 2 ^ 53 := by omega
      rw [if_neg (by omega), show (t * 2 ^ 52 + 2 ^ 53) / 2 ^ 52 - 1 = t + 1 by omega,
        show (t * 2 ^ 52 + 2 ^ 53) % 2 ^ 52 = 0 by omega, pow_succ]
      ring

/-! ### Nearness of magnitudes -/

theorem signFactor_eq_or (s : BitVec 1) : signFactor s = 1 ∨ signFactor s = -1 := by
  rw [signFactor]
  split
  · exact .inl rfl
  · exact .inr rfl

/-- Among reals of any sign, those of the target's own sign are nearest: signs only move magnitudes apart. -/
theorem abs_sub_le_abs_signed_sub {s s' u v : ℚ} (hs : s = 1 ∨ s = -1) (hs' : s' = 1 ∨ s' = -1) (hu : 0 ≤ u)
    (hv : 0 ≤ v) : |u - v| ≤ |s' * u - s * v| := by
  have habs : ∀ {x y : ℚ}, x = 1 ∨ x = -1 → 0 ≤ y → |x * y| = y := by
    rintro x y (rfl | rfl) hy <;> simp [abs_of_nonneg hy]
  calc |u - v| = |(|s' * u|) - (|s * v|)| := by rw [habs hs' hu, habs hs hv]
    _ ≤ |s' * u - s * v| := abs_abs_sub_abs_le _ _

/-- A finite pattern whose magnitude is as near to that of a real as any magnitude is nearest to the real of its sign. -/
theorem isNearestKey_of_keyUnits {K : Key} (hK : (keyExponent K).toNat ≠ 2047) {v : ℚ} (hv : 0 ≤ v)
    (hnear : ∀ K', |(keyUnits K : ℚ) / 2 ^ 1074 - v| ≤ |(keyUnits K' : ℚ) / 2 ^ 1074 - v|) :
    IsNearestKey (signFactor (keySign K) * v) K := by
  refine ⟨_, keyReal_eq_keyUnits K hK, fun K' y hy => ?_⟩
  have hK' : (keyExponent K').toNat ≠ 2047 := by
    intro h
    rw [keyReal_of_non_finite K' h] at hy
    cases hy
  rw [keyReal_eq_keyUnits K' hK'] at hy
  obtain rfl := Option.some.inj hy
  have hs := signFactor_eq_or (keySign K)
  calc |signFactor (keySign K) * ((keyUnits K : ℚ) / 2 ^ 1074) - signFactor (keySign K) * v|
      = |(keyUnits K : ℚ) / 2 ^ 1074 - v| := by
        rw [← mul_sub, abs_mul]
        rcases hs with h | h <;> simp [h]
    _ ≤ |(keyUnits K' : ℚ) / 2 ^ 1074 - v| := hnear K'
    _ ≤ _ := abs_sub_le_abs_signed_sub hs (signFactor_eq_or _) (by positivity) hv

/-- Distances to `num / den` in units of 2^-1074 and of `1 / den`, as whole numbers. -/
theorem abs_units_sub_div (u num : Nat) {den scale : Nat} (hden : 0 < den) (hscale : 0 < scale) :
    |(u : ℚ) / scale - num / den| = (|(u : ℤ) * den - num * scale| : ℤ) / (scale * den) := by
  have hd : (0 : ℚ) < den := by exact_mod_cast hden
  have hs : (0 : ℚ) < scale := by exact_mod_cast hscale
  rw [div_sub_div _ _ hs.ne' hd.ne', abs_div, abs_of_pos (mul_pos hs hd)]
  push_cast
  rw [mul_comm (scale : ℚ) num]

/-! ### The rounding of `nearestMagnitude` -/

/-- A quotient rounded by its remainder, a tie either way, is off by at most half a unit. -/
theorem round_quotient_error (n unit : Nat) (tie : Bool) (hunit : 0 < unit) :
    2 * |((if 2 * (n % unit) > unit ∨ (2 * (n % unit) = unit ∧ tie = true) then n / unit + 1 else n / unit : ℕ) : ℤ) *
      unit - n| ≤ unit := by
  have hdiv : (n : ℤ) = unit * (n / unit : ℕ) + (n % unit : ℕ) := by exact_mod_cast (Nat.div_add_mod n unit).symm
  have hmod := Nat.mod_lt n hunit
  rw [hdiv]
  generalize n / unit = q
  generalize n % unit = rem at hmod ⊢
  split
  · rw [show ((q + 1 : ℕ) : ℤ) * unit - (unit * q + rem) = unit - rem by push_cast; ring, abs_of_nonneg (by omega)]
    omega
  · rw [show (q : ℤ) * unit - (unit * q + rem) = -rem by ring, abs_neg, abs_of_nonneg (by omega)]
    omega

/-- What is off by at most half a unit is nearest among the multiples of the unit. -/
theorem abs_mul_unit_sub_le {m j n unit : ℤ} (h : 2 * |m * unit - n| ≤ unit) : |m * unit - n| ≤ |j * unit - n| := by
  by_cases hj : j = m
  · rw [hj]
  · have hunit : 0 ≤ unit := by linarith [abs_nonneg (m * unit - n)]
    have hgap : unit ≤ |j * unit - m * unit| := by
      rw [← sub_mul, abs_mul, abs_of_nonneg hunit]
      exact le_mul_of_one_le_left hunit (Int.one_le_abs (sub_ne_zero.2 hj))
    have htri := abs_sub_le (j * unit) n (m * unit)
    rw [abs_sub_comm n] at htri
    linarith

/-- Dropping the bits below a 53-bit significand leaves fewer than 2^53, and at least 2^52 where a bit is dropped. -/
theorem div_two_pow_significand (N : Nat) :
    N / 2 ^ (Nat.log2 N - 52) < 2 ^ 53 ∧ (Nat.log2 N - 52 = 0 ∨ 2 ^ 52 ≤ N / 2 ^ (Nat.log2 N - 52)) := by
  constructor
  · rw [Nat.div_lt_iff_lt_mul (by positivity), ← pow_add]
    exact Nat.lt_log2_self.trans_le (Nat.pow_le_pow_right (by decide) (by omega))
  · by_cases ht : Nat.log2 N - 52 = 0
    · exact .inl ht
    · have hN : N ≠ 0 := by
        rintro rfl
        exact ht rfl
      right
      rw [Nat.le_div_iff_mul_le (by positivity), ← pow_add, show 52 + (Nat.log2 N - 52) = Nat.log2 N by omega]
      exact Nat.log2_self_le hN

/-- What `nearestMagnitude` gives: a significand `m` of at most 53 bits, or the carry out of one, with `t` bits dropped; the real
is within half a unit of it, and at or above the bottom of the binade where bits are dropped (R37). -/
theorem nearestMagnitude_spec (num : Nat) {den : Nat} (hden : 0 < den) :
    ∃ t m : Nat, nearestMagnitude num den = t * 2 ^ 52 + m ∧ m ≤ 2 ^ 53 ∧
      (t = 0 ∨ 2 ^ 52 ≤ m ∧ 2 ^ 52 * (den * 2 ^ t) ≤ num * 2 ^ 1074) ∧
      2 * |(m : ℤ) * (den * 2 ^ t : ℕ) - (num * 2 ^ 1074 : ℕ)| ≤ (den * 2 ^ t : ℕ) := by
  refine ⟨_, _, rfl, ?_, ?_, round_quotient_error _ _ _ (by positivity)⟩
  all_goals
    generalize num * 2 ^ 1074 = n
    obtain ⟨hlt, hge⟩ := div_two_pow_significand (n / den)
    rw [Nat.div_div_eq_div_mul] at hlt hge
  · split <;> omega
  · refine hge.imp_right fun hm => ⟨?_, (Nat.le_div_iff_mul_le (by positivity)).1 hm⟩
    split <;> omega

/-- No magnitude is nearer to `num / den` than the one that `nearestMagnitude` rounds to: a multiple of the unit is not, by the
rounding, and one that is no multiple lies below the bottom of the binade, itself a multiple. -/
theorem rounded_units_nearest {num den t m : Nat} (ht : t = 0 ∨ 2 ^ 52 * (den * 2 ^ t) ≤ num * 2 ^ 1074)
    (herr : 2 * |(m : ℤ) * (den * 2 ^ t : ℕ) - (num * 2 ^ 1074 : ℕ)| ≤ (den * 2 ^ t : ℕ)) (K : Key) :
    |((m * 2 ^ t : ℕ) : ℤ) * den - num * (2 ^ 1074 : ℕ)| ≤ |(keyUnits K : ℤ) * den - num * (2 ^ 1074 : ℕ)| := by
  rw [show ((m * 2 ^ t : ℕ) : ℤ) * den = m * (den * 2 ^ t : ℕ) by push_cast; ring, ← Nat.cast_mul num]
  generalize num * 2 ^ 1074 = n at ht herr ⊢
  have hmultiple : 2 ^ t ∣ keyUnits K →
      |(m : ℤ) * (den * 2 ^ t : ℕ) - n| ≤ |(keyUnits K : ℤ) * den - n| := by
    rintro ⟨j, hj⟩
    rw [hj, show ((2 ^ t * j : ℕ) : ℤ) * den = j * (den * 2 ^ t : ℕ) by push_cast; ring]
    exact abs_mul_unit_sub_le herr
  rcases two_pow_dvd_keyUnits_or_lt K t with hdvd | hlow
  · exact hmultiple hdvd
  rcases ht with rfl | hbottom
  · exact hmultiple (one_dvd _)
  have hbelow : keyUnits K * den ≤ 2 ^ 52 * (den * 2 ^ t) := by
    calc keyUnits K * den ≤ 2 ^ 52 * 2 ^ t * den := Nat.mul_le_mul_right den hlow.le
      _ = 2 ^ 52 * (den * 2 ^ t) := by ring
  have hfar : |((2 ^ 52 : ℕ) : ℤ) * (den * 2 ^ t : ℕ) - n| ≤ |(keyUnits K : ℤ) * den - n| := by
    zify at hbottom hbelow
    rw [abs_of_nonpos (by push_cast; linarith), abs_of_nonpos (by linarith)]
    push_cast
    linarith
  exact (abs_mul_unit_sub_le herr).trans hfar

/-! ### The pattern of `f64` -/

/-- The fields of a magnitude written as a pattern with sign bit 0. -/
theorem fields_of_ofNat {p : Nat} (hp : p < 2047 * 2 ^ 52) :
    keySign (BitVec.ofNat 64 p) = 0 ∧ (keyExponent (BitVec.ofNat 64 p)).toNat = p / 2 ^ 52 ∧
      (keyFraction (BitVec.ofNat 64 p)).toNat = p % 2 ^ 52 := by
  refine ⟨BitVec.eq_of_toNat_eq (y := 0#1) ?_, ?_, ?_⟩ <;>
    simp only [keySign, keyExponent, keyFraction, BitVec.extractLsb'_toNat, BitVec.toNat_ofNat, Nat.shiftRight_eq_div_pow]
  all_goals omega

/-- The sign bit set on a pattern changes the sign and no other field. -/
theorem fields_of_or_signBit (K : Key) :
    keySign (K ||| 0x8000000000000000#64) = 1 ∧ keyExponent (K ||| 0x8000000000000000#64) = keyExponent K ∧
      keyFraction (K ||| 0x8000000000000000#64) = keyFraction K := by
  have hone : ∀ s : BitVec 1, s ||| 1#1 = 1 := by decide
  refine ⟨?_, ?_, ?_⟩
  · rw [keySign, BitVec.extractLsb'_or]
    exact hone _
  · rw [keyExponent, BitVec.extractLsb'_or]
    exact BitVec.or_zero
  · rw [keyFraction, BitVec.extractLsb'_or]
    exact BitVec.or_zero

/-- Below the pattern of infinity, `f64` is the rounded magnitude, the sign bit set where a minus is written (R37). -/
theorem f64Pattern_of_lt (neg : Bool) {num den : Nat} (hp : nearestMagnitude num den < 2047 * 2 ^ 52) :
    f64Pattern neg num den =
      if neg then BitVec.ofNat 64 (nearestMagnitude num den) ||| 0x8000000000000000#64
      else BitVec.ofNat 64 (nearestMagnitude num den) := by
  rw [f64Pattern, if_pos hp]

/-- From the pattern of infinity on, `f64` is the free value (entry 11). -/
theorem f64Pattern_of_ge (neg : Bool) {num den : Nat} (hp : 2047 * 2 ^ 52 ≤ nearestMagnitude num den) :
    f64Pattern neg num den = Config.f64Overflow neg num den := by
  rw [f64Pattern, if_neg (Nat.not_lt.2 hp)]

/-- Below the pattern of infinity, `f64` writes the sign and the two fields of the rounded magnitude. -/
theorem fields_of_f64Pattern (neg : Bool) {num den : Nat} (hp : nearestMagnitude num den < 2047 * 2 ^ 52) :
    signFactor (keySign (f64Pattern neg num den)) = (if neg then -1 else 1) ∧
      (keyExponent (f64Pattern neg num den)).toNat = nearestMagnitude num den / 2 ^ 52 ∧
      (keyFraction (f64Pattern neg num den)).toNat = nearestMagnitude num den % 2 ^ 52 := by
  obtain ⟨hs, hE, hF⟩ := fields_of_ofNat hp
  rw [f64Pattern_of_lt neg hp]
  cases neg with
  | false =>
    rw [if_neg Bool.false_ne_true, hs]
    exact ⟨rfl, hE, hF⟩
  | true =>
    obtain ⟨hs', hE', hF'⟩ := fields_of_or_signBit (BitVec.ofNat 64 (nearestMagnitude num den))
    rw [if_pos rfl, hs', hE', hF']
    exact ⟨rfl, hE, hF⟩

/-- In range, no finite pattern is nearer to the real than its `f64` (R37). -/
theorem f64Pattern_isNearestKey (neg : Bool) (num : Nat) {den : Nat} (hden : 0 < den)
    (hp : nearestMagnitude num den < 2047 * 2 ^ 52) :
    IsNearestKey ((if neg then -1 else 1) * ((num : ℚ) / den)) (f64Pattern neg num den) := by
  obtain ⟨hsign, hE, hF⟩ := fields_of_f64Pattern neg hp
  have hfinite : (keyExponent (f64Pattern neg num den)).toNat ≠ 2047 := by omega
  obtain ⟨t, m, hmag, hm, ht, herr⟩ := nearestMagnitude_spec num hden
  have hunits : keyUnits (f64Pattern neg num den) = m * 2 ^ t :=
    keyUnits_of_fields (hmag ▸ hE) (hmag ▸ hF) hm (ht.imp_right And.left)
  rw [← hsign]
  refine isNearestKey_of_keyUnits hfinite (div_nonneg num.cast_nonneg den.cast_nonneg) fun K' => ?_
  have hscale : (2 : ℚ) ^ 1074 = (2 ^ 1074 : ℕ) := (Nat.cast_pow 2 1074).symm
  rw [hunits, hscale, abs_units_sub_div _ _ hden (by positivity), abs_units_sub_div _ _ hden (by positivity)]
  have hnear := rounded_units_nearest (ht.imp_right And.right) herr K'
  gcongr

/-- Settles O45: in range by nearness of the magnitudes, past it by the definition's free value (entry 11). -/
theorem f64PatternIsNearest : Obligations.F64PatternIsNearest := by
  intro neg num den hden
  exact ⟨f64Pattern_isNearestKey neg num hden, f64Pattern_of_ge neg⟩

end Sys2Proof.Machine
end

section
/-! PROOFS. The statements of 40_interleaver.md: DILATE and CONTRACT bit by bit, the two functions as inverses, and the ladders. A
ladder gets one invariant, the coordinate's bits standing in groups with gaps of the same width between them, and one lemma per
direction for what a mask-and-shift step does to it (R39 to R45). -/

namespace Sys2Proof.Machine

/-! ### The answers, bit by bit -/

/-- Answering touches the outputs and their window only. -/
theorem onlyOutputsChange_answer (s : State) (x : Response) : OnlyOutputsChange s (s.answer x) :=
  ⟨rfl, rfl, rfl, rfl, rfl, rfl⟩

@[simp] theorem getLsbD_coordOfA (a : Word64) (k : Nat) :
    (coordOfA a).getLsbD k = (decide (k < 16) && a.getLsbD k) := by
  simp [coordOfA]

@[simp] theorem getLsbD_codeOfA (a : Word64) (k : Nat) :
    (codeOfA a).getLsbD k = (decide (k < 32) && a.getLsbD k) := by
  simp [codeOfA]

/-- Zero extension to `r` keeps every bit of a 32-bit result (R33). -/
@[simp] theorem getLsbD_zextCode (c : Code) (k : Nat) : (zextCode c).getLsbD k = c.getLsbD k := by
  rw [zextCode, BitVec.getLsbD_setWidth, Bool.and_eq_right_iff_imp, decide_eq_true_iff]
  exact fun h => (BitVec.lt_of_getLsbD h).trans (by decide)

/-- Zero extension to `r` keeps every bit of a 16-bit result (R33). -/
@[simp] theorem getLsbD_zextCoord (c : Coord) (k : Nat) : (zextCoord c).getLsbD k = c.getLsbD k := by
  rw [zextCoord, BitVec.getLsbD_setWidth, Bool.and_eq_right_iff_imp, decide_eq_true_iff]
  exact fun h => (BitVec.lt_of_getLsbD h).trans (by decide)

/-- An even position of a dilated coordinate carries the bit of half its index (R39). -/
theorem getLsbD_dilate16_two_mul (n : Coord) (k : Nat) : (dilate16 n).getLsbD (2 * k) = n.getLsbD k := by
  rw [getLsbD_dilate16, Nat.mul_mod_right, Nat.mul_div_right k (by decide)]
  by_cases hk : k < 16
  · simp [show 2 * k < 32 by omega]
  · simp [BitVec.getLsbD_of_ge n k (by omega)]

/-- An odd position of a dilated coordinate is 0 (R39). -/
theorem getLsbD_dilate16_two_mul_add_one (n : Coord) (k : Nat) : (dilate16 n).getLsbD (2 * k + 1) = false := by
  simp [getLsbD_dilate16]

/-- Settles O5, with the bits of `dilate16` under the slice read and the extension to `r`. -/
theorem dilateScattersToEvenBits : Obligations.DilateScattersToEvenBits := by
  intro s
  refine ⟨_, exec_eq .dilate s, rfl, onlyOutputsChange_answer s _, fun k hk => ?_, fun i hi => ?_⟩ <;>
    rw [State.answer_r, blockF_dilate, answerOk_r]
  · rw [getLsbD_zextCode, getLsbD_zextCode, getLsbD_dilate16_two_mul, getLsbD_coordOfA, decide_eq_true hk]
    exact ⟨Bool.true_and _, getLsbD_dilate16_two_mul_add_one _ k⟩
  · exact getLsbD_zextCode_of_ge _ hi

/-- Settles O6, with the bits of `contract32` under the slice read and the extension to `r`. -/
theorem contractGathersEvenBits : Obligations.ContractGathersEvenBits := by
  intro s
  refine ⟨_, exec_eq .contract s, rfl, onlyOutputsChange_answer s _, fun k hk => ?_, fun i hi => ?_⟩ <;>
    rw [State.answer_r, blockF_contract, answerOk_r]
  · have h2k : 2 * k < 32 := by omega
    rw [getLsbD_zextCoord, getLsbD_contract32, getLsbD_codeOfA, decide_eq_true hk, decide_eq_true h2k, Bool.true_and,
      Bool.true_and]
  · exact getLsbD_zextCoord_of_ge _ hi

/-! ### The two functions as inverses -/

theorem contract32_dilate16 (n : Coord) : contract32 (dilate16 n) = n := by
  apply BitVec.eq_of_getLsbD_eq
  intro k hk
  rw [getLsbD_contract32, getLsbD_dilate16_two_mul, decide_eq_true hk, Bool.true_and]

/-- The other way round, the odd bits are lost (R45). -/
theorem dilate16_contract32 (v : Code) : dilate16 (contract32 v) = v &&& Config.mEven := by
  apply BitVec.eq_of_getLsbD_eq
  intro j hj
  rw [getLsbD_dilate16, getLsbD_contract32, BitVec.getLsbD_and, getLsbD_mEven]
  by_cases heven : j % 2 = 0
  · simp [hj, heven, show j / 2 < 16 by omega, show 2 * (j / 2) = j by omega]
  · simp [heven]

/-- A value has no bit outside a mask exactly when the mask keeps it whole. -/
theorem and_not_eq_zero_iff {w : Nat} (d m : BitVec w) : d &&& ~~~m = 0 ↔ d &&& m = d := by
  constructor
  · intro h
    calc d &&& m = d &&& m ||| d &&& ~~~m := by rw [h]; exact BitVec.or_zero.symm
      _ = d := by rw [← BitVec.and_or_distrib_left, BitVec.or_not_self, BitVec.and_allOnes]
  · intro h
    rw [← h, BitVec.and_assoc, BitVec.and_not_self]
    exact BitVec.and_zero

/-- What `dilate16` reaches is what the even mask keeps whole (R45). -/
theorem exists_dilate16_eq_iff (d : Code) : (∃ n, dilate16 n = d) ↔ d &&& Config.mEven = d := by
  rw [← dilate16_contract32]
  constructor
  · rintro ⟨n, rfl⟩
    rw [contract32_dilate16]
  · exact fun h => ⟨contract32 d, h⟩

/-- Settles O7 from the two compositions: the first makes `dilate16` one-to-one, and together they give what it reaches. -/
theorem dilateAndContractAreInverse : Obligations.DilateAndContractAreInverse :=
  ⟨contract32_dilate16, dilate16_contract32,
    fun d => (exists_dilate16_eq_iff d).trans (and_not_eq_zero_iff d Config.mEven).symm,
    fun _ _ h => Function.LeftInverse.injective contract32_dilate16 h⟩

/-! ### The ladders -/

/-- Bits of `f` in `count` groups of `g`, each at the bottom of a field of `2 * g` bits whose upper half is 0: what a ladder holds
between two steps (R40, R43). With `f` true everywhere it is a ladder's mask. -/
abbrev SpacedGroups (count g : Nat) (f : Nat → Bool) (c : Code) : Prop :=
  ∀ q < count, ∀ r < 2 * g, c.getLsbD (2 * (g * q) + r) = (decide (r < g) && f (g * q + r))

/-- A bit inside a group is the bit of `f` that stands there. -/
theorem SpacedGroups.getLsbD_group {count g : Nat} {f : Nat → Bool} {c : Code} (hc : SpacedGroups count g f c) {q r : Nat}
    (hq : q < count) (hr : r < g) : c.getLsbD (2 * (g * q) + r) = f (g * q + r) := by
  rw [hc q hq r (by omega), decide_eq_true hr, Bool.true_and]

/-- A bit in the gap above a group is 0. -/
theorem SpacedGroups.getLsbD_gap {count g : Nat} {f : Nat → Bool} {c : Code} (hc : SpacedGroups count g f c) {q r : Nat}
    (hq : q < count) (hr : r < g) : c.getLsbD (2 * (g * q) + (g + r)) = false := by
  rw [hc q hq (g + r) (by omega), decide_eq_false (by omega), Bool.false_and]

/-- A step of the spread-bits ladder halves the groups: the shift moves the upper half of each into the gap above it, and the mask
clears what the shift leaves behind (R40). -/
theorem SpacedGroups.halve {count h : Nat} {f : Nat → Bool} {c mask : Code} (hc : SpacedGroups count (2 * h) f c)
    (hmask : SpacedGroups (2 * count) h (fun _ => true) mask) :
    SpacedGroups (2 * count) h f ((c ||| (c <<< h)) &&& mask) := by
  intro q hq r hr
  rw [BitVec.getLsbD_and, BitVec.getLsbD_or, hmask q hq r hr]
  by_cases hrh : r < h
  · have hin : 2 * (h * q) + r < 32 := BitVec.lt_of_getLsbD (hmask.getLsbD_group hq hrh)
    obtain ⟨p, rfl | rfl⟩ := q.even_or_odd'
    · have hstays : c.getLsbD (2 * (h * (2 * p)) + r) = f (h * (2 * p) + r) := by
        rw [show h * (2 * p) = 2 * h * p by ring]
        exact hc.getLsbD_group (by omega) (by omega)
      have hbelow : (c <<< h).getLsbD (2 * (h * (2 * p)) + r) = false := by
        cases p with
        | zero => simp [hrh]
        | succ p =>
          have hpos : 2 * (h * (2 * (p + 1))) + r = 2 * (2 * h * p) + (2 * h + (h + r)) + h := by ring
          rw [BitVec.getLsbD_shiftLeft, hpos, Nat.add_sub_cancel, hc.getLsbD_gap (by omega) (by omega), Bool.and_false]
      simp [hstays, hbelow, hrh]
    · have hgap : c.getLsbD (2 * (h * (2 * p + 1)) + r) = false := by
        rw [show 2 * (h * (2 * p + 1)) + r = 2 * (2 * h * p) + (2 * h + r) by ring]
        exact hc.getLsbD_gap (by omega) (by omega)
      have hmoves : (c <<< h).getLsbD (2 * (h * (2 * p + 1)) + r) = f (h * (2 * p + 1) + r) := by
        have hpos : 2 * (h * (2 * p + 1)) + r = 2 * (2 * h * p) + (h + r) + h := by ring
        rw [hpos] at hin
        rw [BitVec.getLsbD_shiftLeft, hpos, Nat.add_sub_cancel, hc.getLsbD_group (by omega) (by omega)]
        simp [hin, show h * (2 * p + 1) + r = 2 * h * p + (h + r) by ring]
      simp [hgap, hmoves, hrh]
  · simp [hrh]

/-- A step of the mirrored ladder joins groups in pairs: the shift moves every second group down beside the one below it, and the
mask clears what the shift leaves behind (R43). -/
theorem SpacedGroups.join {count h : Nat} {f : Nat → Bool} {c mask : Code} (hc : SpacedGroups (2 * count) h f c)
    (hmask : SpacedGroups count (2 * h) (fun _ => true) mask) :
    SpacedGroups count (2 * h) f ((c ||| (c >>> h)) &&& mask) := by
  intro q hq r hr
  rw [BitVec.getLsbD_and, BitVec.getLsbD_or, BitVec.getLsbD_ushiftRight, hmask q hq r hr,
    show 2 * h * q = h * (2 * q) by ring]
  by_cases hlow : r < h
  · have hstays : c.getLsbD (2 * (h * (2 * q)) + r) = f (h * (2 * q) + r) := hc.getLsbD_group (by omega) hlow
    have habove : c.getLsbD (h + (2 * (h * (2 * q)) + r)) = false := by
      rw [Nat.add_left_comm]
      exact hc.getLsbD_gap (by omega) hlow
    simp [hstays, habove, show r < 2 * h by omega]
  · obtain ⟨i, rfl⟩ := Nat.exists_eq_add_of_le (Nat.le_of_not_lt hlow)
    by_cases hi : i < h
    · have hgap : c.getLsbD (2 * (h * (2 * q)) + (h + i)) = false := hc.getLsbD_gap (by omega) hi
      have hmoves : c.getLsbD (h + (2 * (h * (2 * q)) + (h + i))) = f (h * (2 * q) + (h + i)) := by
        have hpos : h + (2 * (h * (2 * q)) + (h + i)) = 2 * (h * (2 * q + 1)) + i := by ring
        have hbit : h * (2 * q) + (h + i) = h * (2 * q + 1) + i := by ring
        rw [hpos, hbit]
        exact hc.getLsbD_group (by omega) hi
      simp [hgap, hmoves, show h + i < 2 * h by omega]
    · simp [show ¬ h + i < 2 * h by omega]

/-- Before it is spread, a coordinate is one group of 16. -/
theorem spacedGroups_setWidth (n : Coord) : SpacedGroups 1 16 n.getLsbD (n.setWidth 32) := by
  intro q hq r hr
  obtain rfl : q = 0 := by omega
  by_cases hr16 : r < 16
  · simp [hr16, hr]
  · simp [hr16, BitVec.getLsbD_of_ge n r (by omega)]

/-- One group of 16 is the coordinate, zero-extended. -/
theorem SpacedGroups.setWidth_eq {n : Coord} {c : Code} (hc : SpacedGroups 1 16 n.getLsbD c) : c.setWidth 16 = n := by
  apply BitVec.eq_of_getLsbD_eq
  intro k hk
  simpa [hk] using hc 0 (by decide) k (by omega)

/-- Groups of one bit are the dilated coordinate (R39). -/
theorem spacedGroups_one_iff {n : Coord} {c : Code} : SpacedGroups 16 1 n.getLsbD c ↔ c = dilate16 n := by
  constructor
  · intro hc
    apply BitVec.eq_of_getLsbD_eq
    intro j hj
    have hbit := hc (j / 2) (by omega) (j % 2) (by omega)
    rw [Nat.one_mul, Nat.div_add_mod] at hbit
    rw [hbit, getLsbD_dilate16, decide_eq_true hj, Bool.true_and]
    obtain heven | hodd := Nat.mod_two_eq_zero_or_one j
    · simp [heven]
    · simp [hodd]
  · rintro rfl q hq r hr
    rw [Nat.one_mul]
    obtain rfl | rfl : r = 0 ∨ r = 1 := by omega
    · simpa using getLsbD_dilate16_two_mul n q
    · exact getLsbD_dilate16_two_mul_add_one n q

/-- Settles O8: the groups go from 16 bits to 1 in four halvings. -/
theorem dilateLadderIsDilate : Obligations.DilateLadderIsDilate := by
  intro v
  have h16 := spacedGroups_setWidth v
  have h8 := h16.halve (h := 8) (mask := 0x00FF00FF#32) (by decide)
  have h4 := h8.halve (h := 4) (mask := 0x0F0F0F0F#32) (by decide)
  have h2 := h4.halve (h := 2) (mask := 0x33333333#32) (by decide)
  have h1 := h2.halve (h := 1) (mask := 0x55555555#32) (by decide)
  exact spacedGroups_one_iff.1 h1

/-- Settles O9: the masked input is a dilated coordinate, and its groups go from 1 bit to 16 in four joins. -/
theorem contractLadderIsContract : Obligations.ContractLadderIsContract := by
  intro v
  have h1 := spacedGroups_one_iff.2 (dilate16_contract32 v).symm
  have h2 := h1.join (count := 8) (mask := 0x33333333#32) (by decide)
  have h4 := h2.join (count := 4) (mask := 0x0F0F0F0F#32) (by decide)
  have h8 := h4.join (count := 2) (mask := 0x00FF00FF#32) (by decide)
  have h16 := h8.join (count := 1) (mask := 0x0000FFFF#32) (by decide)
  exact h16.setWidth_eq

end Sys2Proof.Machine
end

section
/-! PROOFS. The statements of 41_codec.md about COMBINE, ENCODE and DECODE: the bits of each function's result, one lemma per kind
of position, and ENCODE and DECODE as inverses, coordinate by coordinate and code by code (R46 to R50). -/

namespace Sys2Proof.Machine

/-! ### The bits of a Morton Code -/

/-- Nothing is shifted into bit 0 (R46). -/
theorem getLsbD_mortonCombine_zero (dx dy : Code) : (mortonCombine dx dy).getLsbD 0 = dx.getLsbD 0 := by
  simp [mortonCombine]

/-- Above bit 0, the bit of `dx` meets the bit of `dy` from one place below (R46). -/
theorem getLsbD_mortonCombine_succ (dx dy : Code) {i : Nat} (hi : i + 1 < 32) :
    (mortonCombine dx dy).getLsbD (i + 1) = (dx.getLsbD (i + 1) || dy.getLsbD i) := by
  rw [mortonCombine, BitVec.getLsbD_or, BitVec.getLsbD_shiftLeft, decide_eq_true hi, Nat.add_sub_cancel, Bool.or_comm]
  simp

/-- The even bits of a Morton Code are `x`: the shifted `y` has its zeros there (R48). -/
theorem getLsbD_mortonEncode_two_mul (x y : Coord) {k : Nat} (hk : k < 16) :
    (mortonEncode x y).getLsbD (2 * k) = x.getLsbD k := by
  rw [← mortonCombine_dilate16]
  cases k with
  | zero => exact (getLsbD_mortonCombine_zero _ _).trans (getLsbD_dilate16_two_mul x 0)
  | succ k =>
    have hshifted : (dilate16 y).getLsbD (2 * k + 1) = false := getLsbD_dilate16_two_mul_add_one y k
    rw [Nat.mul_succ, getLsbD_mortonCombine_succ _ _ (by omega), hshifted, Bool.or_false]
    exact getLsbD_dilate16_two_mul x (k + 1)

/-- The odd bits of a Morton Code are `y`: the dilated `x` has its zeros there (R48). -/
theorem getLsbD_mortonEncode_two_mul_add_one (x y : Coord) {k : Nat} (hk : k < 16) :
    (mortonEncode x y).getLsbD (2 * k + 1) = y.getLsbD k := by
  rw [← mortonCombine_dilate16, getLsbD_mortonCombine_succ _ _ (by omega), getLsbD_dilate16_two_mul_add_one, Bool.false_or,
    getLsbD_dilate16_two_mul]

/-- DECODE's `x` is the even bits; the mask before `contract32` loses none of them (R49). -/
theorem getLsbD_mortonX (c : Code) {k : Nat} (hk : k < 16) : (mortonX c).getLsbD k = c.getLsbD (2 * k) := by
  have h2k : 2 * k < 32 := by omega
  rw [mortonX, getLsbD_contract32, BitVec.getLsbD_and, getLsbD_mEven]
  simp [hk, h2k]

/-- DECODE's `y` is the odd bits, moved down one place before `contract32` (R49). -/
theorem getLsbD_mortonY (c : Code) {k : Nat} (hk : k < 16) : (mortonY c).getLsbD k = c.getLsbD (2 * k + 1) := by
  have h2k : 2 * k < 32 := by omega
  rw [mortonY, getLsbD_contract32, BitVec.getLsbD_and, BitVec.getLsbD_ushiftRight, getLsbD_mEven, Nat.add_comm 1]
  simp [hk, h2k]

/-! ### DECODE's pair on `r` -/

/-- `x` stands in `r[15:0]` (R49). -/
theorem getLsbD_packPair_low (x y : Coord) {k : Nat} (hk : k < 16) : (packPair x y).getLsbD k = x.getLsbD k := by
  rw [packPair, getLsbD_zextCode, BitVec.getLsbD_append, if_pos hk]

/-- `y` stands in `r[31:16]` (R49). -/
theorem getLsbD_packPair_high (x y : Coord) (k : Nat) : (packPair x y).getLsbD (16 + k) = y.getLsbD k := by
  rw [packPair, getLsbD_zextCode, BitVec.getLsbD_append, if_neg (by omega), Nat.add_sub_cancel_left]

/-- Reading `r[15:0]` of a pair gives `x`. -/
theorem extractLsb'_low_packPair (x y : Coord) : (packPair x y).extractLsb' 0 16 = x := by
  apply BitVec.eq_of_getLsbD_eq
  intro k hk
  rw [BitVec.getLsbD_extractLsb', decide_eq_true hk, Bool.true_and, Nat.zero_add, getLsbD_packPair_low x y hk]

/-- Reading `r[31:16]` of a pair gives `y`. -/
theorem extractLsb'_high_packPair (x y : Coord) : (packPair x y).extractLsb' 16 16 = y := by
  apply BitVec.eq_of_getLsbD_eq
  intro k hk
  rw [BitVec.getLsbD_extractLsb', decide_eq_true hk, Bool.true_and, getLsbD_packPair_high]

/-! ### The answers, bit by bit -/

@[simp] theorem getLsbD_coordOfB (b : Code) (k : Nat) :
    (coordOfB b).getLsbD k = (decide (k < 16) && b.getLsbD k) := by
  simp [coordOfB]

/-- A coordinate put on `a` is read back whole by ENCODE (R33). -/
theorem coordOfA_setWidth_coord (x : Coord) : coordOfA (x.setWidth 64) = x := by
  apply BitVec.eq_of_getLsbD_eq
  intro k hk
  rw [getLsbD_coordOfA, BitVec.getLsbD_setWidth]
  simp [hk, show k < 64 by omega]

/-- A coordinate put on `b` is read back whole by ENCODE (R33). -/
theorem coordOfB_setWidth (y : Coord) : coordOfB (y.setWidth 32) = y := by
  apply BitVec.eq_of_getLsbD_eq
  intro k hk
  rw [getLsbD_coordOfB, BitVec.getLsbD_setWidth]
  simp [hk, show k < 32 by omega]

/-- Settles O10, with the bits of `mortonCombine` under the slices read and the extension to `r`. -/
theorem combineOrsShiftedAxis : Obligations.CombineOrsShiftedAxis := by
  intro s
  refine ⟨_, exec_eq .combine s, rfl, onlyOutputsChange_answer s _, ?_, fun i hi1 hi => ?_, fun i hi => ?_⟩ <;>
    rw [State.answer_r, blockF_combine, answerOk_r]
  · rw [getLsbD_zextCode, getLsbD_mortonCombine_zero, getLsbD_codeOfA]
    exact Bool.true_and _
  · obtain ⟨j, rfl⟩ := Nat.exists_eq_add_of_le' hi1
    rw [getLsbD_zextCode, getLsbD_mortonCombine_succ _ _ hi, getLsbD_codeOfA, decide_eq_true hi, Bool.true_and, codeOfB,
      Nat.add_sub_cancel]
  · exact getLsbD_zextCode_of_ge _ hi

/-- Settles O11, with the bits of a Morton Code under the slices read and the extension to `r`. -/
theorem encodeInterleavesCoordinates : Obligations.EncodeInterleavesCoordinates := by
  intro s
  refine ⟨_, exec_eq .encode s, rfl, onlyOutputsChange_answer s _, fun k hk => ?_, fun i hi => ?_⟩ <;>
    rw [State.answer_r, blockF_encode, answerOk_r]
  · rw [getLsbD_zextCode, getLsbD_zextCode, getLsbD_mortonEncode_two_mul _ _ hk,
      getLsbD_mortonEncode_two_mul_add_one _ _ hk, getLsbD_coordOfA, getLsbD_coordOfB, decide_eq_true hk]
    exact ⟨Bool.true_and _, Bool.true_and _⟩
  · exact getLsbD_zextCode_of_ge _ hi

/-- Settles O12: both requests answer the Morton Code of `x` and `y`, and its bits are placed as R48 says. -/
theorem mortonBitPlacement : Obligations.MortonBitPlacement := by
  intro s x y k hk
  have hbits : (zextCode (mortonEncode x y)).getLsbD (2 * k) = x.getLsbD k ∧
      (zextCode (mortonEncode x y)).getLsbD (2 * k + 1) = y.getLsbD k := by
    rw [getLsbD_zextCode, getLsbD_zextCode]
    exact ⟨getLsbD_mortonEncode_two_mul x y hk, getLsbD_mortonEncode_two_mul_add_one x y hk⟩
  refine ⟨⟨_, exec_eq .encode _, ?_⟩, ⟨_, exec_eq .combine _, ?_⟩⟩
  · rwa [State.answer_r, blockF_encode, answerOk_r, coordOfA_setWidth_coord, coordOfB_setWidth]
  · rwa [State.answer_r, blockF_combine, answerOk_r, ← zextCode, codeOfA_zextCode, codeOfB, mortonCombine_dilate16]

/-- Settles O13, with the bits of each coordinate under its place on `r`. -/
theorem decodeSplitsCoordinates : Obligations.DecodeSplitsCoordinates := by
  intro s
  refine ⟨_, exec_eq .decode s, rfl, onlyOutputsChange_answer s _, fun k hk => ?_, fun i hi => ?_⟩ <;>
    rw [State.answer_r, blockF_decode, answerOk_r]
  · have heven : 2 * k < 32 := by omega
    have hodd : 2 * k + 1 < 32 := by omega
    rw [getLsbD_packPair_low _ _ hk, getLsbD_packPair_high, getLsbD_mortonX _ hk, getLsbD_mortonY _ hk, getLsbD_codeOfA,
      getLsbD_codeOfA, decide_eq_true heven, decide_eq_true hodd]
    exact ⟨Bool.true_and _, Bool.true_and _⟩
  · exact getLsbD_zextCode_of_ge _ hi

/-! ### ENCODE and DECODE as inverses -/

theorem mortonX_mortonEncode (x y : Coord) : mortonX (mortonEncode x y) = x := by
  apply BitVec.eq_of_getLsbD_eq
  intro k hk
  rw [getLsbD_mortonX _ hk, getLsbD_mortonEncode_two_mul x y hk]

theorem mortonY_mortonEncode (x y : Coord) : mortonY (mortonEncode x y) = y := by
  apply BitVec.eq_of_getLsbD_eq
  intro k hk
  rw [getLsbD_mortonY _ hk, getLsbD_mortonEncode_two_mul_add_one x y hk]

/-- Every position of a code is even or odd, so its two coordinates hold all of it (R50). -/
theorem mortonEncode_mortonX_mortonY (c : Code) : mortonEncode (mortonX c) (mortonY c) = c := by
  apply BitVec.eq_of_getLsbD_eq
  intro j hj
  obtain ⟨k, rfl | rfl⟩ := j.even_or_odd'
  · rw [getLsbD_mortonEncode_two_mul _ _ (by omega), getLsbD_mortonX _ (by omega)]
  · rw [getLsbD_mortonEncode_two_mul_add_one _ _ (by omega), getLsbD_mortonY _ (by omega)]

/-- The pair of coordinates of a code undoes `mortonEncode` on both sides (R50). -/
theorem mortonEncode_bijective : Function.Bijective fun p : Coord × Coord => mortonEncode p.1 p.2 :=
  Function.bijective_iff_has_inverse.2 ⟨fun c => (mortonX c, mortonY c),
    fun p => Prod.ext (mortonX_mortonEncode p.1 p.2) (mortonY_mortonEncode p.1 p.2), mortonEncode_mortonX_mortonY⟩

/-- DECODE of a Morton Code answers the two coordinates it was made of (R50). -/
theorem blockF_decode_mortonEncode (x y : Coord) (b : Code) :
    blockF ⟨encodeOp .decode, zextCode (mortonEncode x y), b⟩ = answerOk (packPair x y) := by
  rw [blockF_decode, codeOfA_zextCode, mortonX_mortonEncode, mortonY_mortonEncode]

/-- ENCODE of the two coordinates of a code answers the code (R50). -/
theorem blockF_encode_mortonX_mortonY (c : Code) :
    blockF ⟨encodeOp .encode, (mortonX c).setWidth 64, (mortonY c).setWidth 32⟩ = answerOk (zextCode c) := by
  rw [blockF_encode, coordOfA_setWidth_coord, coordOfB_setWidth, mortonEncode_mortonX_mortonY]

/-- Settles O14: each round trip ends in the answer that one of the two equations above gives. -/
theorem encodeAndDecodeAreInverse : Obligations.EncodeAndDecodeAreInverse := by
  refine ⟨fun s => ⟨_, _, exec_eq .encode s, exec_eq .decode _, rfl, ?_⟩,
    fun s => ⟨_, _, exec_eq .decode s, exec_eq .encode _, rfl, ?_⟩, mortonEncode_bijective⟩
  · rw [State.answer_r, State.answer_r, blockF_encode, answerOk_r, blockF_decode_mortonEncode, answerOk_r]
    exact ⟨extractLsb'_low_packPair _ _, extractLsb'_high_packPair _ _⟩
  · rw [State.answer_r, State.answer_r, blockF_decode, answerOk_r, extractLsb'_low_packPair, extractLsb'_high_packPair,
      blockF_encode_mortonX_mortonY, answerOk_r]
    rfl

end Sys2Proof.Machine
end

section
/-! PROOFS. The statement of 41_codec.md that passes through the key: NORM's key is accepted and DENORM of it is the code, so the
four requests in a row are DECODE of ENCODE (R50, R56). The key is off by less than half a unit of the code, and rounding takes
what is that near back. -/

namespace Sys2Proof.Machine

/-! ### The fields of a pattern put together -/

@[simp] theorem keyExponent_bin64 (s : BitVec 1) (E : BitVec 11) (F : BitVec 52) : keyExponent (bin64 s E F) = E := by
  apply BitVec.eq_of_getLsbD_eq
  intro i hi
  rw [keyExponent, bin64, BitVec.getLsbD_extractLsb', BitVec.getLsbD_append, BitVec.getLsbD_append]
  simp [hi]

@[simp] theorem keyFraction_bin64 (s : BitVec 1) (E : BitVec 11) (F : BitVec 52) : keyFraction (bin64 s E F) = F := by
  apply BitVec.eq_of_getLsbD_eq
  intro i hi
  rw [keyFraction, bin64, BitVec.getLsbD_extractLsb', BitVec.getLsbD_append]
  simp [hi]

/-- A pattern with sign bit 0, read as unsigned (R51). -/
theorem toNat_bin64_zero (E : BitVec 11) (F : BitVec 52) : (bin64 0 E F).toNat = E.toNat * 2 ^ 52 + F.toNat := by
  have hF := F.isLt
  rw [bin64, BitVec.toNat_append, BitVec.toNat_append, ← Nat.shiftLeft_add_eq_or_of_lt hF, Nat.shiftLeft_eq]
  simp

/-! ### NORM's key -/

/-- A code other than 0 and D, scaled as NORM scales it before dividing by D. The code is at most D - 1 and at most `2^(k+1) - 1`;
either keeps the quotient below 2^53 by more than rounding can add (R52). -/
theorem scaled_code_bounds {c k : Nat} (hlow : 2 ^ k ≤ c) (hhigh : c < 2 ^ (k + 1)) (hlt : c < Config.divisor) :
    2 ^ 84 ≤ c * 2 ^ (84 - k) ∧ c * 2 ^ (84 - k) ≤ 2 ^ 85 - 2 ^ 54 := by
  have hk : k < 32 := (Nat.pow_lt_pow_iff_right (by decide)).1 (hlow.trans_lt (hlt.trans (by decide)))
  constructor
  · calc 2 ^ 84 = 2 ^ k * 2 ^ (84 - k) := by rw [← pow_add, Nat.add_sub_cancel' (by omega)]
      _ ≤ c * 2 ^ (84 - k) := Nat.mul_le_mul_right _ hlow
  · rcases Nat.lt_or_ge k 31 with hk31 | hk31
    · have hunit : 2 ^ 54 ≤ 2 ^ (84 - k) := Nat.pow_le_pow_right (by decide) (by omega)
      have htop : (c + 1) * 2 ^ (84 - k) ≤ 2 ^ 85 := by
        calc (c + 1) * 2 ^ (84 - k) ≤ 2 ^ (k + 1) * 2 ^ (84 - k) := Nat.mul_le_mul_right _ hhigh
          _ = 2 ^ 85 := by rw [← pow_add, show k + 1 + (84 - k) = 85 by omega]
      rw [Nat.add_mul, Nat.one_mul] at htop
      omega
    · obtain rfl : k = 31 := by omega
      rw [Config.divisor] at hlt
      omega

/-- NORM's significand has 53 bits, its top one set (R52). -/
theorem normSignificand_bounds {c k : Nat} (hlow : 2 ^ k ≤ c) (hhigh : c < 2 ^ (k + 1)) (hlt : c < Config.divisor) :
    2 ^ 52 ≤ normSignificand c k ∧ normSignificand c k < 2 ^ 53 := by
  obtain ⟨hmin, hmax⟩ := scaled_code_bounds hlow hhigh hlt
  have hnear := normSignificand_nearest c k
  generalize c * 2 ^ (84 - k) = p at hmin hmax hnear
  generalize normSignificand c k = m at hnear ⊢
  have hle := le_abs_self ((m : ℤ) * Config.divisor - (p : ℕ))
  have hge := neg_abs_le ((m : ℤ) * Config.divisor - (p : ℕ))
  simp only [Config.divisor, Nat.cast_ofNat] at hnear hle hge
  constructor <;> omega

/-- A pattern with sign bit 0 and an exponent below that of 1.0 is in DENORM's domain (R54). -/
theorem keyAccepted_bin64_zero {E : BitVec 11} (F : BitVec 52) (hE : E.toNat < 1023) :
    keyAccepted (bin64 0 E F) = true := by
  have hF := F.isLt
  have hle : (bin64 0 E F).toNat ≤ 0x3FF0000000000000 := by
    rw [toNat_bin64_zero]
    omega
  rw [keyAccepted, decide_eq_true hle, Bool.true_or]

section Interior
variable {c : Code} (hzero : c.toNat ≠ 0) (hone : c.toNat ≠ Config.divisor)
include hzero hone

/-- A code other than 0 and D lies in the binade of its top bit, one of 32, and below D. -/
theorem log2_bounds_of_interior :
    2 ^ Nat.log2 c.toNat ≤ c.toNat ∧ c.toNat < 2 ^ (Nat.log2 c.toNat + 1) ∧ c.toNat < Config.divisor ∧
      Nat.log2 c.toNat < 32 := by
  have hc := c.isLt
  refine ⟨Nat.log2_self_le hzero, Nat.lt_log2_self, ?_, (Nat.log2_lt hzero).2 hc⟩
  rw [Config.divisor] at hone ⊢
  omega

/-- NORM's key where neither end of the range is asked for (R52). -/
theorem normKey_eq_bin64 :
    normKey c = bin64 0 (BitVec.ofNat 11 (Nat.log2 c.toNat + 1023 - 32))
      (BitVec.ofNat 52 (normSignificand c.toNat (Nat.log2 c.toNat) - 2 ^ 52)) := by
  rw [normKey, if_neg hzero, if_neg hone]

/-- The exponent field of NORM's key: the place of the code's top bit, less 32, with the bias (R52, R53). -/
theorem keyExponent_normKey : (keyExponent (normKey c)).toNat = Nat.log2 c.toNat + 991 := by
  obtain ⟨_, _, _, hk⟩ := log2_bounds_of_interior hzero hone
  rw [normKey_eq_bin64 hzero hone, keyExponent_bin64, BitVec.toNat_ofNat]
  omega

/-- The fraction field of NORM's key holds the significand whole, but for its top bit (R52). -/
theorem keyFraction_normKey :
    2 ^ 52 + (keyFraction (normKey c)).toNat = normSignificand c.toNat (Nat.log2 c.toNat) := by
  obtain ⟨hlow, hhigh, hlt, _⟩ := log2_bounds_of_interior hzero hone
  obtain ⟨hmin, hmax⟩ := normSignificand_bounds hlow hhigh hlt
  rw [normKey_eq_bin64 hzero hone, keyFraction_bin64, BitVec.toNat_ofNat]
  omega

/-- DENORM reads NORM's significand back from the key (R55). -/
theorem keySignificand_normKey : keySignificand (normKey c) = normSignificand c.toNat (Nat.log2 c.toNat) := by
  rw [keySignificand, if_neg (by rw [keyExponent_normKey hzero hone]; omega), keyFraction_normKey hzero hone]

/-- DENORM shifts back by what NORM scaled with (R52, R55). -/
theorem keyShift_normKey : keyShift (normKey c) = 84 - Nat.log2 c.toNat := by
  rw [keyShift, keyExponent_normKey hzero hone, if_neg (by omega)]
  omega

end Interior

theorem normKey_of_zero {c : Code} (h : c.toNat = 0) : normKey c = 0 := by
  rw [normKey, if_pos h]
  rfl

theorem normKey_of_divisor {c : Code} (h : c.toNat = Config.divisor) : normKey c = 0x3FF0000000000000#64 := by
  rw [normKey, if_neg (by rw [h]; decide), if_pos h]

/-! ### DENORM of NORM's key -/

/-- DENORM does not refuse a key that NORM makes (R54). -/
theorem keyAccepted_normKey (c : Code) : keyAccepted (normKey c) = true := by
  by_cases hzero : c.toNat = 0
  · rw [normKey_of_zero hzero]
    decide
  by_cases hone : c.toNat = Config.divisor
  · rw [normKey_of_divisor hone]
    decide
  have hE := keyExponent_normKey hzero hone
  obtain ⟨_, _, _, hk⟩ := log2_bounds_of_interior hzero hone
  rw [normKey_eq_bin64 hzero hone, keyExponent_bin64] at hE
  rw [normKey_eq_bin64 hzero hone]
  exact keyAccepted_bin64_zero _ (by omega)

/-- What is nearer to a whole number than half a unit is rounded to it (R55). -/
theorem roundShift_eq_of_near {p sh c : Nat} (hsh : 0 < sh) (h : 2 * |(p : ℤ) - c * 2 ^ sh| < 2 ^ sh) :
    roundShift p sh = c := by
  obtain ⟨hnear, _⟩ := roundShift_nearest p sh hsh
  generalize roundShift p sh = n at hnear
  have hlt : |(n : ℤ) - c| * 2 ^ sh < 1 * 2 ^ sh := by
    calc |(n : ℤ) - c| * 2 ^ sh = |(n : ℤ) * 2 ^ sh - c * 2 ^ sh| := by
          rw [← sub_mul, abs_mul, abs_of_pos (show (0 : ℤ) < 2 ^ sh by positivity)]
      _ ≤ |(n : ℤ) * 2 ^ sh - p| + |(p : ℤ) - c * 2 ^ sh| := abs_sub_le _ _ _
      _ < 1 * 2 ^ sh := by omega
  have hone : |(n : ℤ) - c| < 1 := lt_of_mul_lt_mul_right hlt (by positivity)
  exact_mod_cast sub_eq_zero.1 (Int.abs_lt_one_iff.1 hone)

/-- The product that DENORM rounds is off from the code by less than half a unit, NORM's own rounding error: less than half of
`D`, where a unit is at least 2^53 (R56). -/
theorem roundShift_normSignificand {c k : Nat} (hk : k < 32) :
    roundShift (normSignificand c k * Config.divisor) (84 - k) = c := by
  have hnear := normSignificand_nearest c k
  have hunit : (Config.divisor : ℤ) < 2 ^ (84 - k) := by
    calc (Config.divisor : ℤ) < 2 ^ 53 := by decide
      _ ≤ 2 ^ (84 - k) := pow_le_pow_right₀ (by decide) (by omega)
  push_cast at hnear
  refine roundShift_eq_of_near (by omega) ?_
  push_cast
  exact hnear.trans hunit

/-- DENORM undoes NORM (R56). -/
theorem denormCode_normKey (c : Code) : denormCode (normKey c) = c := by
  have hround : roundShift (keySignificand (normKey c) * Config.divisor) (keyShift (normKey c)) = c.toNat := by
    by_cases hzero : c.toNat = 0
    · have hsignificand : keySignificand 0 = 0 := by decide
      have hshift : 0 < keyShift 0 := by decide
      rw [normKey_of_zero hzero, hsignificand, hzero]
      exact roundShift_eq_of_near hshift (by simp)
    by_cases hone : c.toNat = Config.divisor
    · rw [normKey_of_divisor hone, hone]
      decide
    obtain ⟨_, _, _, hk⟩ := log2_bounds_of_interior hzero hone
    rw [keySignificand_normKey hzero hone, keyShift_normKey hzero hone, roundShift_normSignificand hk]
  rw [denormCode, hround, BitVec.ofNat_toNat, BitVec.setWidth_eq]

/-- DENORM of NORM's key answers the code (R56). -/
theorem blockF_denorm_normKey (c : Code) (b : Code) :
    blockF ⟨encodeOp .denorm, normKey c, b⟩ = answerOk (zextCode c) := by
  rw [blockF_denorm, keyOfA, if_pos (keyAccepted_normKey c), denormCode_normKey]

/-- Settles O23: DENORM gives back the code that NORM was fed, so the last request is DECODE of the first one's answer. -/
theorem wholePathReturnsCoordinates : Obligations.WholePathReturnsCoordinates := by
  intro s
  refine ⟨_, _, _, _, exec_eq .encode s, exec_eq .norm _, exec_eq .denorm _, exec_eq .decode _, rfl, ?_⟩
  simp only [State.answer_r, blockF_encode, blockF_norm, answerOk_r, codeOfA_zextCode, blockF_denorm_normKey,
    blockF_decode_mortonEncode]
  exact ⟨extractLsb'_low_packPair _ _, extractLsb'_high_packPair _ _⟩

end Sys2Proof.Machine
end

section
/-! PROOFS. The key format of 42_normalizer.md §1: a pattern is its three fields, and patterns of one sign are ordered as their
magnitudes, since a magnitude with a smaller exponent field ends below where one with a greater begins (R51). DENORM's domain is
read off that order: the patterns up to 1.0, and the one zero with sign 1 (R54). -/

namespace Sys2Proof.Machine

@[simp] theorem keySign_bin64 (s : BitVec 1) (E : BitVec 11) (F : BitVec 52) : keySign (bin64 s E F) = s := by
  apply BitVec.eq_of_getLsbD_eq
  intro i hi
  obtain rfl : i = 0 := by omega
  rw [keySign, bin64, BitVec.getLsbD_extractLsb', BitVec.getLsbD_append, BitVec.getLsbD_append]
  simp

/-- A pattern read as unsigned, by its fields (R51). -/
theorem toNat_eq_fields (K : Key) :
    K.toNat = (keySign K).toNat * 2 ^ 63 + (keyExponent K).toNat * 2 ^ 52 + (keyFraction K).toNat := by
  have hK := K.isLt
  simp only [keySign, keyExponent, keyFraction, BitVec.extractLsb'_toNat, Nat.shiftRight_eq_div_pow]
  omega

theorem bin64_fields (K : Key) : bin64 (keySign K) (keyExponent K) (keyFraction K) = K := by
  apply BitVec.eq_of_toNat_eq
  rw [toNat_eq_fields K, toNat_eq_fields (bin64 _ _ _), keySign_bin64, keyExponent_bin64, keyFraction_bin64]

/-- Settles O3: the fields of `bin64` one by one, and `bin64` of the fields by the pattern's unsigned value. -/
theorem keyFieldsRoundTrip : Obligations.KeyFieldsRoundTrip :=
  ⟨fun s E F => ⟨keySign_bin64 s E F, keyExponent_bin64 s E F, keyFraction_bin64 s E F⟩, bin64_fields⟩

/-! ### The order of magnitudes -/

/-- A magnitude ends below where the next exponent field begins. -/
theorem keyUnits_lt_two_pow (K : Key) : keyUnits K < 2 ^ 52 * 2 ^ (keyExponent K).toNat := by
  have hF := (keyFraction K).isLt
  rw [keyUnits]
  split
  · next hE => rwa [hE, pow_zero, mul_one]
  · next hE =>
    obtain ⟨e, he⟩ := Nat.exists_eq_succ_of_ne_zero hE
    rw [he, Nat.succ_eq_add_one, Nat.add_sub_cancel]
    calc (2 ^ 52 + (keyFraction K).toNat) * 2 ^ e < 2 ^ 53 * 2 ^ e := by gcongr; omega
      _ = 2 ^ 52 * 2 ^ (e + 1) := by ring

/-- A magnitude with a nonzero exponent field is normal: its significand has its top bit. -/
theorem two_pow_le_keyUnits {K : Key} (hE : (keyExponent K).toNat ≠ 0) :
    2 ^ 52 * 2 ^ ((keyExponent K).toNat - 1) ≤ keyUnits K := by
  rw [keyUnits, if_neg hE]
  exact Nat.mul_le_mul_right _ (Nat.le_add_right _ _)

/-- A greater pattern of the same sign has a greater magnitude: by its exponent field, or by its fraction where these agree. -/
theorem keyUnits_lt_keyUnits {K K' : Key} (hs : keySign K = keySign K') (h : K.toNat < K'.toNat) :
    keyUnits K < keyUnits K' := by
  have hF := (keyFraction K).isLt
  have hF' := (keyFraction K').isLt
  rw [toNat_eq_fields K, toNat_eq_fields K', hs] at h
  rcases Nat.lt_trichotomy (keyExponent K).toNat (keyExponent K').toNat with hE | hE | hE
  · calc keyUnits K < 2 ^ 52 * 2 ^ (keyExponent K).toNat := keyUnits_lt_two_pow K
      _ ≤ 2 ^ 52 * 2 ^ ((keyExponent K').toNat - 1) := by gcongr <;> omega
      _ ≤ keyUnits K' := two_pow_le_keyUnits (by omega)
  · rw [keyUnits, keyUnits, hE]
    split
    · omega
    · gcongr
      omega
  · omega

theorem keyUnits_lt_iff {K K' : Key} (hs : keySign K = keySign K') : keyUnits K < keyUnits K' ↔ K.toNat < K'.toNat := by
  refine ⟨fun h => ?_, keyUnits_lt_keyUnits hs⟩
  rcases Nat.lt_trichotomy K.toNat K'.toNat with hlt | heq | hgt
  · exact hlt
  · rw [BitVec.eq_of_toNat_eq heq] at h
    exact absurd h (lt_irrefl _)
  · exact absurd h (keyUnits_lt_keyUnits hs.symm hgt).not_gt

theorem keyUnits_le_iff {K K' : Key} (hs : keySign K = keySign K') : keyUnits K ≤ keyUnits K' ↔ K.toNat ≤ K'.toNat := by
  rw [← not_lt, ← not_lt, keyUnits_lt_iff hs.symm]

theorem keyUnits_inj {K K' : Key} (hs : keySign K = keySign K') : keyUnits K = keyUnits K' ↔ K = K' := by
  rw [← BitVec.toNat_inj, le_antisymm_iff, le_antisymm_iff, keyUnits_le_iff hs, keyUnits_le_iff hs.symm]

/-- The real of a finite pattern with sign 0 is its magnitude (R51). -/
theorem keyReal_of_sign_zero {K : Key} (hs : keySign K = 0) (hE : (keyExponent K).toNat ≠ 2047) :
    keyReal K = some ((keyUnits K : ℚ) / 2 ^ 1074) := by
  rw [keyReal_eq_keyUnits K hE, hs, signFactor, if_pos rfl, one_mul]

/-- A pattern that stands for a real is no infinity and no NaN (R51). -/
theorem keyExponent_ne_of_keyReal {K : Key} {v : ℚ} (hv : keyReal K = some v) : (keyExponent K).toNat ≠ 2047 := by
  intro hE
  rw [keyReal_of_non_finite K hE] at hv
  cases hv

/-- Below the pattern of +infinity the sign is 0 and the pattern is finite (R51). -/
theorem sign_zero_and_finite_of_lt {K : Key} (h : K.toNat < 2047 * 2 ^ 52) :
    keySign K = 0 ∧ (keyExponent K).toNat ≠ 2047 := by
  rw [toNat_eq_fields] at h
  exact ⟨BitVec.eq_of_toNat_eq (y := 0#1) (by rw [BitVec.toNat_ofNat]; omega), by omega⟩

/-- Settles O4: the reals are the magnitudes in one unit, which are ordered as the patterns. -/
theorem keyPatternsOrderTheirReals : Obligations.KeyPatternsOrderTheirReals := by
  intro K K' hK hK'
  obtain ⟨hs, hE⟩ := sign_zero_and_finite_of_lt hK
  obtain ⟨hs', hE'⟩ := sign_zero_and_finite_of_lt hK'
  refine ⟨_, _, keyReal_of_sign_zero hs hE, keyReal_of_sign_zero hs' hE', ?_⟩
  rw [div_lt_div_iff_of_pos_right (by positivity), Nat.cast_lt, keyUnits_lt_iff (hs.trans hs'.symm)]

/-! ### DENORM's domain -/

/-- DENORM's domain as the test on the pattern (R54). -/
theorem keyAccepted_iff (K : Key) : keyAccepted K = true ↔ K.toNat ≤ 0x3FF0000000000000 ∨ K = 0x8000000000000000#64 := by
  rw [keyAccepted, Bool.or_eq_true, decide_eq_true_iff, beq_iff_eq]

theorem keySign_eq_or (K : Key) : keySign K = 0 ∨ keySign K = 1 := by
  generalize keySign K = s
  revert s
  decide

/-- The pattern 1.0 has the magnitude 2^1074, in units of 2^-1074. -/
theorem keyUnits_one : keyUnits 0x3FF0000000000000#64 = 2 ^ 1074 := by
  have hE : (keyExponent 0x3FF0000000000000#64).toNat = 1023 := by decide
  have hF : (keyFraction 0x3FF0000000000000#64).toNat = 0 := by decide
  rw [keyUnits, hE, hF, if_neg (by decide), Nat.add_zero, ← pow_add]

theorem keyUnits_negZero : keyUnits 0x8000000000000000#64 = 0 := by decide

/-- With sign 0, DENORM accepts what is not above 1.0 (R54). -/
theorem keyAccepted_iff_of_sign_zero {K : Key} (hs : keySign K = 0) : keyAccepted K = true ↔ keyUnits K ≤ 2 ^ 1074 := by
  rw [keyAccepted_iff, ← keyUnits_one, keyUnits_le_iff hs]
  refine or_iff_left ?_
  rintro rfl
  cases hs

/-- With sign 1, DENORM accepts only a zero (R54). -/
theorem keyAccepted_iff_of_sign_one {K : Key} (hs : keySign K = 1) : keyAccepted K = true ↔ keyUnits K = 0 := by
  have hK := toNat_eq_fields K
  rw [hs, show BitVec.toNat (1 : BitVec 1) = 1 from rfl] at hK
  rw [keyAccepted_iff, ← keyUnits_negZero, keyUnits_inj hs]
  refine or_iff_right (Nat.not_le.2 ?_)
  omega

/-- No accepted key has an exponent field above that of 1.0. -/
theorem keyExponent_le_of_accepted {K : Key} (h : keyAccepted K = true) : (keyExponent K).toNat ≤ 1023 := by
  rcases (keyAccepted_iff K).1 h with hle | rfl
  · rw [toNat_eq_fields] at hle
    omega
  · decide

/-- The real of a finite pattern with sign 1 is its magnitude negated (R51). -/
theorem keyReal_of_sign_one {K : Key} (hs : keySign K = 1) (hE : (keyExponent K).toNat ≠ 2047) :
    keyReal K = some (-((keyUnits K : ℚ) / 2 ^ 1074)) := by
  rw [keyReal_eq_keyUnits K hE, hs, signFactor, if_neg (by decide), neg_one_mul]

/-- The pattern test accepts exactly the patterns that stand for a real in [0, 1] (R54). -/
theorem keyAccepted_iff_real (K : Key) : keyAccepted K = true ↔ ∃ v, keyReal K = some v ∧ 0 ≤ v ∧ v ≤ 1 := by
  by_cases hE : (keyExponent K).toNat = 2047
  · rw [keyReal_of_non_finite K hE]
    refine iff_of_false (fun h => ?_) (by simp)
    have := keyExponent_le_of_accepted h
    omega
  have hscale : (2 : ℚ) ^ 1074 = (2 ^ 1074 : ℕ) := (Nat.cast_pow 2 1074).symm
  have hpos : 0 < 2 ^ 1074 := by positivity
  rcases keySign_eq_or K with hs | hs
  · rw [keyAccepted_iff_of_sign_zero hs, keyReal_of_sign_zero hs hE, hscale]
    generalize 2 ^ 1074 = scale at hpos ⊢
    simp [div_le_one₀ (Nat.cast_pos (α := ℚ).2 hpos), div_nonneg]
  · rw [keyAccepted_iff_of_sign_one hs, keyReal_of_sign_one hs hE, hscale]
    generalize 2 ^ 1074 = scale at hpos ⊢
    constructor
    · intro h
      simp [h]
    · rintro ⟨v, hv, hnonneg, -⟩
      obtain rfl := Option.some.inj hv
      have hunits : (keyUnits K : ℚ) / scale = 0 :=
        le_antisymm (neg_nonneg.1 hnonneg) (div_nonneg (Nat.cast_nonneg _) (Nat.cast_nonneg _))
      simpa [hpos.ne'] using hunits

/-- The real of an accepted key lies in the unit interval (R54). -/
theorem keyReal_mem_of_accepted {K : Key} {v : ℚ} (h : keyAccepted K = true) (hv : keyReal K = some v) : 0 ≤ v ∧ v ≤ 1 := by
  obtain ⟨_, hv', hmem⟩ := (keyAccepted_iff_real K).1 h
  rwa [Option.some.inj (hv'.symm.trans hv)] at hmem

/-- An accepted key stands for a real (R54). -/
theorem exists_keyReal_of_accepted {K : Key} (h : keyAccepted K = true) : ∃ v, keyReal K = some v := by
  obtain ⟨v, hv, _⟩ := (keyAccepted_iff_real K).1 h
  exact ⟨v, hv⟩

/-- Settles O19: the test, the unit interval, and which of its two answers DENORM gives. -/
theorem denormDomainIsUnitInterval : Obligations.DenormDomainIsUnitInterval := by
  refine fun K => ⟨keyAccepted_iff K, keyAccepted_iff_real K, fun h b => ?_, fun h b => ?_⟩
  · exact congrArg Response.st ((blockF_denorm K b).trans (if_pos h))
  · exact (blockF_denorm K b).trans (if_neg (ne_true_of_eq_false h))

end Sys2Proof.Machine
end

section
/-! PROOFS. The statements of 42_normalizer.md §2: NORM's key is the pattern that `f64` gives the quotient, since a significand
nearer to a real than half a unit of its binade is the only one that rounding can give; NORM's nearness, range and order are
read off that (R52, R53). -/

namespace Sys2Proof.Machine

/-- `D` as the statements write it (R5). -/
theorem cast_divisor : (Config.divisor : ℚ) = 4294967295 := Nat.cast_ofNat

/-- NORM's key is never negative (R53). -/
theorem keySign_normKey (c : Code) : keySign (normKey c) = 0 := by
  by_cases hzero : c.toNat = 0
  · rw [normKey_of_zero hzero]
    rfl
  by_cases hone : c.toNat = Config.divisor
  · rw [normKey_of_divisor hone]
    rfl
  rw [normKey_eq_bin64 hzero hone, keySign_bin64]

/-! ### NORM as the rounding of `f64` -/

/-- The number of bits above the 53 of a significand, for a number of `53 + t` bits or, where `t` is 0, of any fewer. -/
theorem log2_sub_of_bounds {N t : Nat} (hlow : t = 0 ∨ 2 ^ (52 + t) ≤ N) (hhigh : N < 2 ^ (53 + t)) :
    Nat.log2 N - 52 = t := by
  by_cases hN : N = 0
  · subst hN
    rcases hlow with rfl | hlow
    · rfl
    · exact absurd hlow (Nat.not_le.2 (by positivity))
  · have hlt := (Nat.log2_lt hN).2 hhigh
    have hge := hlow.imp_right (Nat.le_log2 hN).2
    omega

/-- What is off by less than half a unit is the only multiple of the unit that is off by at most half of one. -/
theorem eq_of_near {m m' n unit : ℤ} (h : 2 * |m * unit - n| < unit) (h' : 2 * |m' * unit - n| ≤ unit) : m' = m := by
  have hunit : 0 < unit := by linarith [abs_nonneg (m * unit - n)]
  have hlt : |m' - m| * unit < 1 * unit := by
    calc |m' - m| * unit = |m' * unit - m * unit| := by rw [← sub_mul, abs_mul, abs_of_pos hunit]
      _ ≤ |m' * unit - n| + |n - m * unit| := abs_sub_le _ _ _
      _ < 1 * unit := by rw [abs_sub_comm n]; linarith
  exact sub_eq_zero.1 (Int.abs_lt_one_iff.1 (lt_of_mul_lt_mul_right hlt hunit.le))

/-- A significand nearer to the real than half a unit, in the binade of the real, is the one that rounding gives (R37). -/
theorem nearestMagnitude_eq_of_near {num den t m : Nat} (hden : 0 < den)
    (hlow : t = 0 ∨ 2 ^ 52 * (den * 2 ^ t) ≤ num * 2 ^ 1074) (hhigh : num * 2 ^ 1074 < 2 ^ 53 * (den * 2 ^ t))
    (hnear : 2 * |(m : ℤ) * (den * 2 ^ t : ℕ) - (num * 2 ^ 1074 : ℕ)| < (den * 2 ^ t : ℕ)) :
    nearestMagnitude num den = t * 2 ^ 52 + m := by
  unfold nearestMagnitude
  generalize num * 2 ^ 1074 = n at *
  have hbits : Nat.log2 (n / den) - 52 = t := by
    refine log2_sub_of_bounds (hlow.imp_right fun h => ?_) ?_
    · rw [Nat.le_div_iff_mul_le hden, pow_add]
      linarith
    · rw [Nat.div_lt_iff_lt_mul hden, pow_add]
      linarith
  have hround := round_quotient_error n (den * 2 ^ t) (Config.f64TieUp num den) (by positivity)
  simp only [hbits]
  exact congrArg (t * 2 ^ 52 + ·) (by exact_mod_cast eq_of_near hnear hround)

/-- `f64` scales a quotient by 2^1074; where a smaller scale already puts it in the binade of a 53-bit significand, the significand
that is strictly nearest there is the one it writes (R37). -/
theorem nearestMagnitude_of_scaled {num den s t m : Nat} (hden : 0 < den) (hst : s + t = 1074)
    (hlow : 2 ^ 52 * den ≤ num * 2 ^ s) (hhigh : num * 2 ^ s < 2 ^ 53 * den)
    (hnear : 2 * |(m : ℤ) * den - (num * 2 ^ s : ℕ)| < den) : nearestMagnitude num den = t * 2 ^ 52 + m := by
  have hscale : num * 2 ^ 1074 = num * 2 ^ s * 2 ^ t := by rw [mul_assoc, ← pow_add, hst]
  have hunit : 0 < 2 ^ t := by positivity
  apply nearestMagnitude_eq_of_near hden <;> rw [hscale]
  all_goals
    generalize num * 2 ^ s = n at *
    generalize 2 ^ t = unit at *
  · rw [← mul_assoc]
    exact .inr (Nat.mul_le_mul_right _ hlow)
  · rw [← mul_assoc]
    exact Nat.mul_lt_mul_of_pos_right hhigh hunit
  · calc 2 * |(m : ℤ) * (den * unit : ℕ) - (n * unit : ℕ)| = 2 * |(m : ℤ) * den - n| * unit := by
          rw [show (m : ℤ) * (den * unit : ℕ) - (n * unit : ℕ) = (m * den - n) * unit by push_cast; ring, abs_mul,
            Nat.abs_cast, mul_assoc]
      _ < den * unit := by gcongr
      _ = (den * unit : ℕ) := (Nat.cast_mul den unit).symm

/-- The magnitude that `f64` writes for the quotient `c / D` is NORM's key, whose sign is 0 (R52). -/
theorem nearestMagnitude_code (c : Code) : nearestMagnitude c.toNat Config.divisor = (normKey c).toNat := by
  by_cases hzero : c.toNat = 0
  · rw [normKey_of_zero hzero, hzero]
    exact nearestMagnitude_eq_of_near (t := 0) (m := 0) (by decide) (.inl rfl)
      (by rw [Nat.zero_mul]; decide) (by rw [Nat.zero_mul]; decide)
  by_cases hone : c.toNat = Config.divisor
  · rw [normKey_of_divisor hone, hone]
    exact nearestMagnitude_of_scaled (num := Config.divisor) (den := Config.divisor) (s := 52) (t := 1022) (m := 2 ^ 52)
      (by decide) rfl (by decide) (by decide) (by decide)
  obtain ⟨hlow, hhigh, hlt, hk⟩ := log2_bounds_of_interior hzero hone
  obtain ⟨hmin, hmax⟩ := scaled_code_bounds hlow hhigh hlt
  have hs : (keySign (normKey c)).toNat = 0 := congrArg BitVec.toNat (keySign_normKey c)
  have hE := keyExponent_normKey hzero hone
  have hF := keyFraction_normKey hzero hone
  have hmag := nearestMagnitude_of_scaled (s := 84 - Nat.log2 c.toNat) (t := Nat.log2 c.toNat + 990) (by decide) (by omega)
    (by rw [Config.divisor]; omega) (by rw [Config.divisor]; omega) (normSignificand_nearest c.toNat (Nat.log2 c.toNat))
  rw [hmag, toNat_eq_fields, hE, hs, ← hF]
  ring

/-- NORM's key is at most the pattern of 1.0 (R53). -/
theorem toNat_normKey_le (c : Code) : (normKey c).toNat ≤ 0x3FF0000000000000 := by
  have hs := congrArg BitVec.toNat (keySign_normKey c)
  rcases (keyAccepted_iff _).1 (keyAccepted_normKey c) with hle | hzero
  · exact hle
  · rw [hzero] at hs
    cases hs

/-- NORM's key is the pattern of the quotient (R37, R52). -/
theorem normKey_eq_f64Pattern (c : Code) : normKey c = f64Pattern false c.toNat Config.divisor := by
  have hle := toNat_normKey_le c
  rw [f64Pattern_of_lt false (by rw [nearestMagnitude_code]; omega), nearestMagnitude_code, BitVec.ofNat_toNat]
  rfl

/-- Settles O46: both write the same magnitude, without a sign (entry 11 at c = 0). -/
theorem normIsF64OfTheQuotient : Obligations.NormIsF64OfTheQuotient := normKey_eq_f64Pattern

/-- NORM's key is finite and nearest to the quotient, because the pattern of `f64` is. -/
theorem isNearestKey_normKey (c : Code) : IsNearestKey ((c.toNat : ℚ) / Config.divisor) (normKey c) := by
  have hle := toNat_normKey_le c
  have hnear := f64Pattern_isNearestKey false c.toNat (show 0 < Config.divisor by decide)
    (by rw [nearestMagnitude_code]; omega)
  rwa [if_neg Bool.false_ne_true, one_mul, ← normKey_eq_f64Pattern] at hnear

theorem codeOfA_toNat (a : Word64) : (codeOfA a).toNat = a.toNat % 2 ^ 32 := by
  rw [codeOfA, BitVec.extractLsb'_toNat, Nat.shiftRight_zero]

/-- Settles O17: NORM answers its key for the code on `a`. -/
theorem normIsNearestBinary64 : Obligations.NormIsNearestBinary64 := by
  intro s
  refine ⟨_, exec_eq .norm s, ?_⟩
  rw [State.answer_r, blockF_norm, answerOk_r, ← codeOfA_toNat, ← cast_divisor]
  exact isNearestKey_normKey _

/-- Settles O16: the two special codes have their keys, and any other has the significand of `normSignificand_nearest`. -/
theorem normRoundsTheQuotient : Obligations.NormRoundsTheQuotient := by
  intro s
  refine ⟨_, exec_eq .norm s, rfl, onlyOutputsChange_answer s _, ?_⟩
  rw [State.answer_r, blockF_norm, answerOk_r, ← codeOfA_toNat]
  generalize codeOfA s.a = c
  refine ⟨normKey_of_zero, normKey_of_divisor, fun hzero hone => ?_⟩
  obtain ⟨hlow, hhigh, hlt, _⟩ := log2_bounds_of_interior hzero hone
  obtain ⟨hmin, hmax⟩ := normSignificand_bounds hlow hhigh hlt
  have hnear := normSignificand_nearest c.toNat (Nat.log2 c.toNat)
  refine ⟨_, _, hlow, hhigh, hmin, hmax, ?_, keySign_normKey c, ?_, ?_⟩
  · exact_mod_cast hnear
  · rw [keyExponent_normKey hzero hone]
  · rw [← keyFraction_normKey hzero hone, add_comm]

/-! ### The error of NORM, and what follows from it -/

/-- Half a unit of a binade below that of 1.0, or of that one, is at most 2^-53. -/
theorem abs_units_sub_div_le {m num den t : Nat} (hden : 0 < den) (ht : t ≤ 1022)
    (herr : 2 * |(m : ℤ) * (den * 2 ^ t : ℕ) - (num * 2 ^ 1074 : ℕ)| ≤ (den * 2 ^ t : ℕ)) :
    |((m * 2 ^ t : ℕ) : ℚ) / 2 ^ 1074 - num / den| ≤ 1 / 2 ^ 53 := by
  have hunit : den * 2 ^ t ≤ den * 2 ^ 1022 := by gcongr; decide
  have hscale : 2 ^ 1074 = 2 ^ 52 * 2 ^ 1022 := by rw [← pow_add]
  rw [show (m : ℤ) * (den * 2 ^ t : ℕ) = (m * 2 ^ t : ℕ) * den by push_cast; ring, Nat.cast_mul num] at herr
  rw [show (2 : ℚ) ^ 1074 = (2 ^ 1074 : ℕ) from (Nat.cast_pow 2 1074).symm,
    abs_units_sub_div _ _ hden (by positivity), div_le_div_iff₀ (by positivity) (by positivity), hscale]
  rw [hscale] at herr
  have hhalf : 2 * |((m * 2 ^ t : ℕ) : ℤ) * den - num * (2 ^ 52 * 2 ^ 1022 : ℕ)| ≤ (den * 2 ^ 1022 : ℕ) := by
    exact herr.trans (by exact_mod_cast hunit)
  generalize |((m * 2 ^ t : ℕ) : ℤ) * den - num * (2 ^ 52 * 2 ^ 1022 : ℕ)| = err at hhalf ⊢
  generalize 2 ^ 1022 = scale at hhalf ⊢
  have hcast : 2 * (err : ℚ) ≤ den * scale := by exact_mod_cast hhalf
  push_cast
  linarith

/-- NORM's key is off by at most half a unit of the binade of 1.0 (R56). -/
theorem abs_keyReal_normKey_sub_le {c : Code} {v : ℚ} (hv : keyReal (normKey c) = some v) :
    |v - (c.toNat : ℚ) / Config.divisor| ≤ 1 / 2 ^ 53 := by
  have hle := toNat_normKey_le c
  have hp : nearestMagnitude c.toNat Config.divisor < 2047 * 2 ^ 52 := by rw [nearestMagnitude_code]; omega
  obtain ⟨t, m, hmag, hm, ht, herr⟩ := nearestMagnitude_spec c.toNat (show 0 < Config.divisor by decide)
  obtain ⟨-, hE, hF⟩ := fields_of_f64Pattern false hp
  rw [← normKey_eq_f64Pattern] at hE hF
  have hunits : keyUnits (normKey c) = m * 2 ^ t :=
    keyUnits_of_fields (hmag ▸ hE) (hmag ▸ hF) hm (ht.imp_right And.left)
  rw [keyReal_of_sign_zero (keySign_normKey c) (keyExponent_ne_of_keyReal hv), hunits] at hv
  obtain rfl := Option.some.inj hv
  refine abs_units_sub_div_le (by decide) ?_ herr
  rw [← nearestMagnitude_code, hmag] at hle
  omega

/-- NORM rounds by less than half of what lies between two quotients (R53). -/
theorem keyReal_normKey_lt {c c' : Code} (h : c.toNat < c'.toNat) :
    ∃ v v', keyReal (normKey c) = some v ∧ keyReal (normKey c') = some v' ∧ v < v' := by
  obtain ⟨v, hv⟩ := exists_keyReal_of_accepted (keyAccepted_normKey c)
  obtain ⟨v', hv'⟩ := exists_keyReal_of_accepted (keyAccepted_normKey c')
  have herr := abs_keyReal_normKey_sub_le hv
  have herr' := abs_keyReal_normKey_sub_le hv'
  refine ⟨v, v', hv, hv', ?_⟩
  have hstep : (c.toNat : ℚ) + 1 ≤ c'.toNat := by exact_mod_cast h
  rw [cast_divisor, abs_le] at herr herr'
  obtain ⟨-, hhigh⟩ := herr
  obtain ⟨hlow, -⟩ := herr'
  linarith

/-- The exponent field of 1.0, NORM's key for D (R53). -/
theorem keyExponent_normKey_divisor {c : Code} (h : c.toNat = Config.divisor) : (keyExponent (normKey c)).toNat = 1023 := by
  rw [normKey_of_divisor h]
  decide

/-- No code other than 0 has a key below the binade of 2^-32 (R53). -/
theorem keyExponent_normKey_ge {c : Code} (hzero : c.toNat ≠ 0) : 991 ≤ (keyExponent (normKey c)).toNat := by
  by_cases hone : c.toNat = Config.divisor
  · rw [keyExponent_normKey_divisor hone]
    decide
  · rw [keyExponent_normKey hzero hone]
    omega

/-- A pattern with sign 0 whose exponent field is that of 2^-32 or more stands for no less (R51). -/
theorem le_keyReal_of_keyExponent {K : Key} {v : ℚ} (hs : keySign K = 0) (hE : 991 ≤ (keyExponent K).toNat)
    (hv : keyReal K = some v) : 1 / 2 ^ 32 ≤ v := by
  rw [keyReal_of_sign_zero hs (keyExponent_ne_of_keyReal hv)] at hv
  obtain rfl := Option.some.inj hv
  have hunits : 2 ^ 1042 ≤ keyUnits K := by
    calc 2 ^ 1042 = 2 ^ 52 * 2 ^ 990 := by rw [← pow_add]
      _ ≤ 2 ^ 52 * 2 ^ ((keyExponent K).toNat - 1) := by gcongr <;> omega
      _ ≤ keyUnits K := two_pow_le_keyUnits (by omega)
  rw [div_le_div_iff₀ (by positivity) (by positivity), show (2 : ℚ) ^ 1074 = 2 ^ 1042 * 2 ^ 32 by rw [← pow_add], one_mul]
  gcongr
  exact_mod_cast hunits

/-- Settles O18: the range is the domain of DENORM, the exponents are those of the codes' top bits, the order is by the error. -/
theorem normRangeAndOrder : Obligations.NormRangeAndOrder := by
  refine ⟨fun c => ?_, fun c c' => keyReal_normKey_lt⟩
  obtain ⟨v, hv⟩ := exists_keyReal_of_accepted (keyAccepted_normKey c)
  obtain ⟨_, hle⟩ := keyReal_mem_of_accepted (keyAccepted_normKey c) hv
  have hne : c ≠ 0 → c.toNat ≠ 0 := fun h h0 => h (BitVec.eq_of_toNat_eq h0)
  refine ⟨v, hv, ?_, fun hc => ⟨keySign_normKey c, ?_, hle⟩, fun hc hone => ⟨?_, ?_⟩, keyExponent_normKey_divisor⟩
  · rintro rfl
    exact normKey_of_zero rfl
  · exact le_keyReal_of_keyExponent (keySign_normKey c) (keyExponent_normKey_ge (hne hc)) hv
  · exact keyExponent_normKey_ge (hne hc)
  · obtain ⟨_, _, _, hk⟩ := log2_bounds_of_interior (hne hc) hone
    rw [keyExponent_normKey (hne hc) hone]
    omega

end Sys2Proof.Machine
end

section
/-! PROOFS. The statements of 42_normalizer.md §3 and §4: what DENORM rounds is the exact product of the key's real with D, so it
gives the code that the real is nearer to than 1/(2D); that brings back NORM's code (R56), gives 0 for what is far below the
first code (R58), and carries a key through ten decimal digits (R57). -/

namespace Sys2Proof.Machine

/-! ### The product that DENORM rounds -/

/-- DENORM's significand and shift are the key's magnitude. -/
theorem keyUnits_mul_two_pow_keyShift {K : Key} (hE : (keyExponent K).toNat ≤ 1075) :
    keyUnits K * 2 ^ keyShift K = keySignificand K * 2 ^ 1074 := by
  rw [keyUnits, keyShift, keySignificand]
  split
  · rfl
  · rw [mul_assoc, ← pow_add]
    congr 2
    omega

/-- The value of an accepted key is its significand over its shift (R55). -/
theorem keyReal_of_accepted {K : Key} (h : keyAccepted K = true) :
    keyReal K = some ((keySignificand K : ℚ) / 2 ^ keyShift K) := by
  have hE := keyExponent_le_of_accepted h
  have hvalue : (keySignificand K : ℚ) / 2 ^ keyShift K = (keyUnits K : ℚ) / 2 ^ 1074 := by
    rw [div_eq_div_iff (by positivity) (by positivity), show (2 : ℚ) ^ 1074 = (2 ^ 1074 : ℕ) from (Nat.cast_pow 2 1074).symm,
      show (2 : ℚ) ^ keyShift K = (2 ^ keyShift K : ℕ) from (Nat.cast_pow 2 _).symm, ← Nat.cast_mul, ← Nat.cast_mul,
      keyUnits_mul_two_pow_keyShift (by omega)]
  rw [hvalue]
  rcases keySign_eq_or K with hs | hs
  · exact keyReal_of_sign_zero hs (by omega)
  · rw [keyReal_of_sign_one hs (by omega), (keyAccepted_iff_of_sign_one hs).1 h, Nat.cast_zero, zero_div, neg_zero]

/-- DENORM's shift is above 0, so that there is half a unit. -/
theorem keyShift_pos {K : Key} (h : keyAccepted K = true) : 0 < keyShift K := by
  have hE := keyExponent_le_of_accepted h
  rw [keyShift]
  split <;> omega

/-- DENORM's rounding, before the result is put in 32 bits: to nearest, ties to even (R55). -/
theorem roundShift_key_nearest {K : Key} {v : ℚ} (h : keyAccepted K = true) (hv : keyReal K = some v) :
    |v * Config.divisor - roundShift (keySignificand K * Config.divisor) (keyShift K)| ≤ 1 / 2 ∧
      (|v * Config.divisor - roundShift (keySignificand K * Config.divisor) (keyShift K)| = 1 / 2 →
        roundShift (keySignificand K * Config.divisor) (keyShift K) % 2 = 0) := by
  rw [keyReal_of_accepted h] at hv
  obtain rfl := Option.some.inj hv
  obtain ⟨hnear, heven⟩ := roundShift_nearest (keySignificand K * Config.divisor) (keyShift K) (keyShift_pos h)
  generalize roundShift (keySignificand K * Config.divisor) (keyShift K) = q at *
  generalize keyShift K = sh at *
  have hunit : (0 : ℚ) < 2 ^ sh := by positivity
  have herr : |(keySignificand K : ℚ) / 2 ^ sh * Config.divisor - q| =
      (|(q : ℤ) * 2 ^ sh - (keySignificand K * Config.divisor : ℕ)| : ℤ) / 2 ^ sh := by
    rw [eq_div_iff hunit.ne', ← abs_of_pos hunit, ← abs_mul, abs_of_pos hunit, sub_mul, abs_sub_comm, mul_right_comm,
      div_mul_cancel₀ _ hunit.ne']
    push_cast
    rfl
  rw [herr, div_le_div_iff₀ hunit two_pos, div_eq_div_iff hunit.ne' two_ne_zero]
  generalize |(q : ℤ) * 2 ^ sh - (keySignificand K * Config.divisor : ℕ)| = err at *
  constructor
  · rw [mul_comm, one_mul]
    exact_mod_cast hnear
  · intro htie
    rw [mul_comm, one_mul] at htie
    exact heven (by exact_mod_cast htie)

/-- The rounded product is at most D, because the key is at most 1 (R55). -/
theorem roundShift_key_le {K : Key} (h : keyAccepted K = true) :
    roundShift (keySignificand K * Config.divisor) (keyShift K) ≤ Config.divisor := by
  obtain ⟨v, hv⟩ := exists_keyReal_of_accepted h
  obtain ⟨-, hle⟩ := keyReal_mem_of_accepted h hv
  obtain ⟨hnear, -⟩ := roundShift_key_nearest h hv
  generalize roundShift (keySignificand K * Config.divisor) (keyShift K) = q at *
  obtain ⟨hlow, -⟩ := abs_le.1 hnear
  have hq : (q : ℚ) < (Config.divisor + 1 : ℕ) := by
    push_cast
    linarith [mul_le_of_le_one_left (Nat.cast_nonneg (α := ℚ) Config.divisor) hle]
  exact Nat.lt_succ_iff.1 (by exact_mod_cast hq)

theorem toNat_denormCode {K : Key} (h : keyAccepted K = true) :
    (denormCode K).toNat = roundShift (keySignificand K * Config.divisor) (keyShift K) := by
  have hle := roundShift_key_le h
  rw [Config.divisor] at hle
  rw [denormCode, BitVec.toNat_ofNat, Nat.mod_eq_of_lt (by rw [Config.divisor]; omega)]

theorem toNat_zextCode (c : Code) : (zextCode c).toNat = c.toNat := by
  rw [zextCode, BitVec.toNat_setWidth_of_le (by decide)]

/-- An accepted key is answered by its code (R55). -/
theorem blockF_denorm_of_accepted {K : Key} (h : keyAccepted K = true) (b : Code) :
    blockF ⟨encodeOp .denorm, K, b⟩ = answerOk (zextCode (denormCode K)) :=
  (blockF_denorm K b).trans (if_pos h)

/-- Any other key is answered by KEY_DOMAIN (R62). -/
theorem blockF_denorm_of_refused {K : Key} (h : ¬ keyAccepted K = true) (b : Code) :
    blockF ⟨encodeOp .denorm, K, b⟩ = raise .keyDomain :=
  (blockF_denorm K b).trans (if_neg h)

/-- Settles O20: the two answers of DENORM, the accepted one by the rounding of the exact product. -/
theorem denormRoundsOrRefuses : Obligations.DenormRoundsOrRefuses := by
  intro s
  rw [← keyAccepted_iff]
  refine ⟨fun h => ?_, fun h => ⟨_, exec_eq .denorm s, ?_, ?_, onlyOutputsChange_answer s _⟩⟩
  · obtain ⟨v, hv⟩ := exists_keyReal_of_accepted h
    refine ⟨_, v, exec_eq .denorm s, ?_, onlyOutputsChange_answer s _, hv, ?_⟩
    · rw [State.answer_st, blockF_denorm_of_accepted h]
      rfl
    · rw [State.answer_r, blockF_denorm_of_accepted h, answerOk_r, toNat_zextCode, toNat_denormCode h]
      exact ⟨roundShift_key_le h, roundShift_key_nearest h hv⟩
  · rw [State.answer_st, blockF_denorm_of_refused h]
    rfl
  · rw [State.answer_r, blockF_denorm_of_refused h]
    rfl

/-! ### Codes recovered -/

/-- A whole number nearer than 1/2 is the only nearest one. -/
theorem eq_of_abs_sub_lt_half {x : ℚ} {m n : Nat} (hm : |x - m| ≤ 1 / 2) (hn : |x - n| < 1 / 2) : m = n := by
  have htri := abs_sub_le (m : ℚ) x n
  rw [abs_sub_comm (m : ℚ) x] at htri
  have hlt : |(m : ℚ) - n| < 1 := by linarith
  have hone : |(m : ℤ) - n| < 1 := by exact_mod_cast hlt
  exact_mod_cast sub_eq_zero.1 (Int.abs_lt_one_iff.1 hone)

/-- A key nearer to `c / D` than to any place halfway between two codes gives `c` (R57). -/
theorem denormCode_eq_of_near {K : Key} {v : ℚ} {c : Code} (h : keyAccepted K = true) (hv : keyReal K = some v)
    (hc : |v - (c.toNat : ℚ) / Config.divisor| < 1 / (2 * Config.divisor)) : denormCode K = c := by
  obtain ⟨hnear, -⟩ := roundShift_key_nearest h hv
  rw [← toNat_denormCode h] at hnear
  have hD : (0 : ℚ) < Config.divisor := Nat.cast_pos.2 (by decide)
  generalize (Config.divisor : ℚ) = D at *
  have hscaled : |v * D - c.toNat| < 1 / 2 := by
    calc |v * D - c.toNat| = |v - c.toNat / D| * D := by
          rw [← abs_of_pos hD, ← abs_mul, abs_of_pos hD, sub_mul, div_mul_cancel₀ _ hD.ne']
      _ < 1 / (2 * D) * D := by gcongr
      _ = 1 / 2 := by field_simp
  exact BitVec.eq_of_toNat_eq (eq_of_abs_sub_lt_half hnear hscaled)

/-- Settles O24: the key gives its code. -/
theorem denormToleratesSmallError : Obligations.DenormToleratesSmallError := by
  intro s c v h hv hc
  rw [← cast_divisor] at hc
  refine ⟨_, exec_eq .denorm s, ?_⟩
  rw [State.answer_st, State.answer_r, blockF_denorm_of_accepted h, denormCode_eq_of_near h hv hc]
  exact ⟨rfl, rfl⟩

/-- Settles O22: NORM's key is answered by its code. -/
theorem denormOfNormIsTheCode : Obligations.DenormOfNormIsTheCode := by
  intro s
  refine ⟨_, _, exec_eq .norm s, exec_eq .denorm _, ?_⟩
  rw [State.answer_st, State.answer_r, State.answer_r, blockF_norm, answerOk_r, blockF_denorm_normKey]
  exact ⟨rfl, rfl⟩

/-- The product of a subnormal or zero key is far below half a code (R55, R58). -/
theorem denormCode_of_keyExponent_zero {K : Key} (hE : (keyExponent K).toNat = 0) : denormCode K = 0 := by
  have hF := (keyFraction K).isLt
  have hsmall : 2 * ((keyFraction K).toNat * Config.divisor) < 2 ^ 1074 := by
    calc 2 * ((keyFraction K).toNat * Config.divisor) < 2 ^ 85 := by rw [Config.divisor]; omega
      _ ≤ 2 ^ 1074 := by gcongr <;> decide
  rw [denormCode, keyShift, keySignificand, if_pos hE, if_pos hE, roundShift_eq_of_near (c := 0) (by decide)]
  · rfl
  · rw [Nat.cast_zero, zero_mul, sub_zero, Nat.abs_cast, show (2 : ℤ) ^ 1074 = (2 ^ 1074 : ℕ) from (Nat.cast_pow 2 1074).symm]
    generalize 2 ^ 1074 = unit at hsmall ⊢
    exact_mod_cast hsmall

/-- Settles O21: accepted patterns with exponent field 0 give 0, and what stands for no real is outside the domain. -/
theorem subnormalKeysGiveZeroNonFiniteAreRefused : Obligations.SubnormalKeysGiveZeroNonFiniteAreRefused := by
  refine ⟨fun s hs => ⟨_, exec_eq .denorm s, ?_⟩, fun s hs => ⟨_, exec_eq .denorm s, ?_⟩⟩
  · have h : keyAccepted s.a = true := (keyAccepted_iff _).2 (hs.imp_left fun hlt => by omega)
    have hE : (keyExponent s.a).toNat = 0 := by
      rcases hs with hlt | heq
      · rw [toNat_eq_fields] at hlt
        omega
      · rw [heq]
        decide
    rw [State.answer_st, State.answer_r, blockF_denorm_of_accepted h, denormCode_of_keyExponent_zero hE]
    exact ⟨rfl, rfl⟩
  · have h : ¬ keyAccepted s.a = true := by
      rw [keyAccepted_iff_real, hs]
      simp
    rw [State.answer_st, State.answer_r, blockF_denorm_of_refused h]
    exact ⟨rfl, rfl⟩

/-! ### Keys carried as decimal text -/

theorem keyReal_one : keyReal 0x3FF0000000000000#64 = some 1 := by
  rw [keyReal_of_sign_zero rfl (by decide), keyUnits_one, Nat.cast_pow, Nat.cast_ofNat, div_self (by positivity)]

/-- What is nearest to a place in the unit interval is in DENORM's domain, because 0 and 1 are as near as that (R57). -/
theorem keyAccepted_of_isNearestKey {w : ℚ} {K : Key} (h0 : 0 ≤ w) (h1 : w ≤ 1) (hK : IsNearestKey w K) :
    keyAccepted K = true := by
  obtain ⟨x, hx, hnear⟩ := hK
  have hzero := hnear 0 0 rfl
  have hone := hnear _ 1 keyReal_one
  rw [zero_sub, abs_neg, abs_of_nonneg h0, abs_le] at hzero
  rw [abs_of_nonneg (sub_nonneg.2 h1), abs_le] at hone
  obtain ⟨hlow, -⟩ := hzero
  obtain ⟨-, hhigh⟩ := hone
  exact (keyAccepted_iff_real K).2 ⟨x, hx, by linarith, by linarith⟩

/-- A place in the unit interval, rounded to a whole number of last digits, stays there: both ends are such numbers. -/
theorem text_mem_unit_interval {v : ℚ} {d : ℤ} {digits : Nat} (hdigits : 0 < digits) (h0 : 0 ≤ v) (h1 : v ≤ 1)
    (hd : |(d : ℚ) - v * digits| ≤ 1 / 2) : 0 ≤ (d : ℚ) / digits ∧ (d : ℚ) / digits ≤ 1 := by
  have hpos : (0 : ℚ) < digits := Nat.cast_pos.2 hdigits
  obtain ⟨hlow, hhigh⟩ := abs_le.1 hd
  have hbottom : -1 < d := by
    have : (-1 : ℚ) < d := by linarith [mul_nonneg h0 hpos.le]
    exact_mod_cast this
  have htop : d < digits + 1 := by
    have : (d : ℚ) < digits + 1 := by linarith [mul_le_of_le_one_left hpos.le h1]
    exact_mod_cast this
  rw [div_le_one hpos]
  refine ⟨div_nonneg ?_ hpos.le, ?_⟩
  · exact_mod_cast Int.lt_iff_add_one_le.1 hbottom
  · exact_mod_cast Int.lt_add_one_iff.1 htop

/-- The text is within half of a tenth digit of NORM's key, and what is read back is no further from the text, because the key
itself is a candidate: together less than 1/(2D) (R57). -/
theorem denormCode_of_ten_digit_text {N : Nat} {c : Code} {v : ℚ} {d : ℤ} {K : Key} (hN : 10 ≤ N) (hv : keyReal (normKey c) = some v)
    (hd : |(d : ℚ) - v * 10 ^ N| ≤ 1 / 2) (hK : IsNearestKey ((d : ℚ) / 10 ^ N) K) :
    keyAccepted K = true ∧ denormCode K = c := by
  have herr := abs_keyReal_normKey_sub_le hv
  obtain ⟨h0, h1⟩ := keyReal_mem_of_accepted (keyAccepted_normKey c) hv
  rw [show (10 : ℚ) ^ N = (10 ^ N : ℕ) by push_cast; rfl] at hd hK
  obtain ⟨hlow, hhigh⟩ := text_mem_unit_interval (by positivity) h0 h1 hd
  have hK' := keyAccepted_of_isNearestKey hlow hhigh hK
  obtain ⟨x, hx, hnear⟩ := hK
  have hback := hnear _ _ hv
  have hdigits : (10 : ℚ) ^ 10 ≤ (10 ^ N : ℕ) := by exact_mod_cast Nat.pow_le_pow_right (by decide) hN
  generalize 10 ^ N = digits at *
  have hpos : (0 : ℚ) < digits := lt_of_lt_of_le (by positivity) hdigits
  have htext : |(d : ℚ) / digits - v| ≤ 1 / 2 / 10 ^ 10 := by
    calc |(d : ℚ) / digits - v| = |(d : ℚ) - v * digits| / digits := by
          rw [← abs_of_pos hpos, ← abs_div, abs_of_pos hpos, sub_div, mul_div_cancel_right₀ _ hpos.ne']
      _ ≤ 1 / 2 / 10 ^ 10 := by gcongr
  refine ⟨hK', denormCode_eq_of_near hK' hx ?_⟩
  rw [abs_sub_comm v] at hback
  calc |x - c.toNat / Config.divisor|
      ≤ |x - d / digits| + |d / digits - v| + |v - c.toNat / Config.divisor| := by
        linarith [abs_sub_le x (d / digits) (c.toNat / Config.divisor), abs_sub_le (d / digits : ℚ) v (c.toNat / Config.divisor)]
    _ ≤ 1 / 2 / 10 ^ 10 + 1 / 2 / 10 ^ 10 + 1 / 2 ^ 53 := by gcongr; exact hback.trans htext
    _ < 1 / (2 * Config.divisor) := by rw [cast_divisor]; norm_num

/-- The nine-digit text of the key of code 2675342405 is 0.622901694; this pattern is nearest to it (R57). -/
theorem isNearestKey_nine_digits : IsNearestKey (((622901694 : ℤ) : ℚ) / 10 ^ 9) 0x3FE3EECF888B4BC5#64 := by
  have hmag : nearestMagnitude 622901694 (10 ^ 9) = 0x3FE3EECF888B4BC5 :=
    nearestMagnitude_of_scaled (s := 53) (t := 1021) (m := 5610599673973701) (by decide) rfl (by decide) (by decide) (by decide)
  have hlt : nearestMagnitude 622901694 (10 ^ 9) < 2047 * 2 ^ 52 := by
    rw [hmag]
    decide
  have hnear := f64Pattern_isNearestKey false 622901694 (by decide) hlt
  rw [f64Pattern_of_lt false hlt, hmag, if_neg Bool.false_ne_true, if_neg Bool.false_ne_true, one_mul] at hnear
  rw [Nat.cast_ofNat, Nat.cast_pow, Nat.cast_ofNat] at hnear
  rwa [Int.cast_ofNat]

/-- Code 2675342405 is lost in nine digits: what its text is read back as gives the code below it (R57). -/
theorem nine_digit_text_gives_the_code_below :
    ∃ v, keyReal (normKey 2675342405#32) = some v ∧ |((622901694 : ℤ) : ℚ) - v * 10 ^ 9| ≤ 1 / 2 ∧
      denormCode 0x3FE3EECF888B4BC5#64 = 2675342404#32 := by
  obtain ⟨v, hv⟩ := exists_keyReal_of_accepted (keyAccepted_normKey 2675342405#32)
  have herr := abs_keyReal_normKey_sub_le hv
  refine ⟨v, hv, ?_, by decide⟩
  rw [cast_divisor, show (2675342405#32).toNat = 2675342405 from rfl] at herr
  obtain ⟨hlow, hhigh⟩ := abs_le.1 herr
  push_cast at hlow hhigh ⊢
  exact abs_le.2 ⟨by linarith, by linarith⟩

/-- Settles O25: ten digits keep the text near enough, and nine do not for the spec's own code. -/
theorem tenDecimalDigitsRecoverTheCode : Obligations.TenDecimalDigitsRecoverTheCode := by
  obtain ⟨v, hv, hd, hcode⟩ := nine_digit_text_gives_the_code_below
  exact ⟨fun N c v d K => denormCode_of_ten_digit_text, _, v, _, _, hv, hd, isNearestKey_nine_digits, by rw [hcode]; decide⟩

end Sys2Proof.Machine
end

section
/-! PROOFS. The statements of 60_exceptions.md: which request raises which status, and instances that share nothing. Who raises
what is said once, as the three ways in which `F` can answer; each place of a bank is followed by iterating `afterStep`. -/

namespace Sys2Proof.Machine

/-! ### Statuses and their causes -/

/-- The three ways in which `F` can answer: the reserved operation raises ILLEGAL_OP, DENORM of a refused key raises KEY_DOMAIN,
and every other request has a value (R60 to R62). -/
theorem blockF_raises_or_answers (i : Instr) (a : Word64) (b : Code) :
    (i = .rsvd7 ∧ blockF ⟨encodeOp i, a, b⟩ = raise .illegalOp) ∨
      ((i = .denorm ∧ keyAccepted a = false) ∧ blockF ⟨encodeOp i, a, b⟩ = raise .keyDomain) ∨
      (i ≠ .rsvd7 ∧ ¬ (i = .denorm ∧ keyAccepted a = false)) ∧ ∃ v, blockF ⟨encodeOp i, a, b⟩ = answerOk v := by
  cases i with
  | rsvd7 => exact .inl ⟨rfl, blockF_rsvd7 a b⟩
  | denorm =>
    rcases Bool.eq_false_or_eq_true (keyAccepted a) with hK | hK
    · exact .inr (.inr ⟨⟨nofun, by simp [hK]⟩, _, blockF_denorm_of_accepted hK b⟩)
    · exact .inr (.inl ⟨⟨rfl, hK⟩, blockF_denorm_of_refused (by simp [hK]) b⟩)
  | dilate => exact .inr (.inr ⟨⟨nofun, nofun⟩, _, blockF_dilate a b⟩)
  | contract => exact .inr (.inr ⟨⟨nofun, nofun⟩, _, blockF_contract a b⟩)
  | combine => exact .inr (.inr ⟨⟨nofun, nofun⟩, _, blockF_combine a b⟩)
  | norm => exact .inr (.inr ⟨⟨nofun, nofun⟩, _, blockF_norm a b⟩)
  | encode => exact .inr (.inr ⟨⟨nofun, nofun⟩, _, blockF_encode a b⟩)
  | decode => exact .inr (.inr ⟨⟨nofun, nofun⟩, _, blockF_decode a b⟩)

/-- ILLEGAL_OP names the reserved operation (R60, R61). -/
theorem blockF_st_eq_illegalOp_iff (i : Instr) (a : Word64) (b : Code) :
    (blockF ⟨encodeOp i, a, b⟩).st = Status.illegalOp.code ↔ i = .rsvd7 := by
  rcases blockF_raises_or_answers i a b with ⟨rfl, h⟩ | ⟨⟨rfl, -⟩, h⟩ | ⟨⟨hi, -⟩, v, h⟩ <;> rw [h]
  · exact iff_of_true rfl rfl
  · exact iff_of_false (by decide) nofun
  · exact iff_of_false (show Status.ok.code ≠ Status.illegalOp.code by decide) hi

/-- KEY_DOMAIN names DENORM with a key outside its domain (R60, R62). -/
theorem blockF_st_eq_keyDomain_iff (i : Instr) (a : Word64) (b : Code) :
    (blockF ⟨encodeOp i, a, b⟩).st = Status.keyDomain.code ↔ i = .denorm ∧ keyAccepted a = false := by
  rcases blockF_raises_or_answers i a b with ⟨rfl, h⟩ | ⟨hi, h⟩ | ⟨⟨-, hi⟩, v, h⟩ <;> rw [h]
  · exact iff_of_false (by decide) nofun
  · exact iff_of_true rfl hi
  · exact iff_of_false (show Status.ok.code ≠ Status.keyDomain.code by decide) hi

/-- No lawful answer has status 11 (R60). -/
theorem LawfulResponse.st_ne_three {x : Response} (h : LawfulResponse x) : x.st ≠ 0b11#2 := by
  obtain ⟨hst | hst | hst, -⟩ := h <;> rw [hst] <;> decide

/-- Settles O26: the reserved operation's answer does not mention its operands. -/
theorem reservedEncodingIsIllegalOp : Obligations.ReservedEncodingIsIllegalOp := fun s =>
  ⟨s.answer (raise .illegalOp), exec_eq .rsvd7 s, rfl, rfl, onlyOutputsChange_answer s _⟩

/-- Settles O27: each error status has its one cause, and the rest holds of every lawful answer (R63). -/
theorem statusNamesItsCause : Obligations.StatusNamesItsCause := fun i s =>
  have hlawful := blockF_lawful ⟨encodeOp i, s.a, s.b⟩
  ⟨_, exec_eq i s, onlyOutputsChange_answer s _, State.answer_window s _, blockF_st_eq_illegalOp_iff i s.a s.b,
    blockF_st_eq_keyDomain_iff i s.a s.b, hlawful.st_ne_three, hlawful.2⟩

/-! ### Instances -/

/-- A run of `n` steps never stops, and iterates `afterStep` (R66, R79). -/
theorem core_run_eq_iterate (n : Nat) (s : State) : Sys2Proof.core.run n s = .next (State.afterStep^[n] s) := by
  induction n generalizing s with
  | zero => rfl
  | succ n ih =>
    rw [run_succ_of_next Sys2Proof.core n s s.afterStep (step_eq_next_afterStep s), Function.iterate_succ_apply]
    exact ih s.afterStep

/-- A step at one place of a bank changes the state there and no other (R26, R72). -/
theorem stepInstance_eq_modify (k : Nat) (bank : List State) : stepInstance k bank = bank.modify k State.afterStep := by
  rw [stepInstance, List.modify_eq_set_getElem?]
  cases bank[k]? with
  | none => rfl
  | some s => simp [step_eq_next_afterStep]

/-- Under a schedule each place takes as many steps as the schedule names it, from its own state (R26, R72). -/
theorem getElem?_runSchedule (schedule : List Nat) (bank : List State) (k : Nat) :
    (runSchedule schedule bank)[k]? = bank[k]?.map State.afterStep^[schedule.count k] := by
  induction schedule generalizing bank with
  | nil => exact Option.map_id_apply.symm
  | cons j js ih =>
    rw [runSchedule, ih, stepInstance_eq_modify, List.getElem?_modify]
    by_cases hj : j = k
    · subst hj
      rw [List.count_cons_self, Function.iterate_succ]
      simp
    · rw [List.count_cons_of_ne hj]
      simp [hj]

/-- Settles O35: both the bank and the run alone iterate `afterStep` from the same state, the same number of times. -/
theorem instancesShareNothing : Obligations.InstancesShareNothing := by
  intro schedule bank k s hs
  refine ⟨_, ?_, core_run_eq_iterate (schedule.count k) s⟩
  rw [getElem?_runSchedule, hs, Option.map_some]

end Sys2Proof.Machine
end

section
/-! PROOFS. The statements of 70_reset_and_hazards.md: power-up, the ports in time, and the run of the host's sequence. What the
settle rule turns on is said once for holding the inputs: long enough, and the outputs are `F` of them; inside the window, and
they are the free value last drawn. -/

namespace Sys2Proof.Machine

/-! ### Power-up -/

/-- Settles O40: the window at power-up is the whole of `T_SETTLE`, which is not 0, and nothing is sampled. -/
theorem resetMeetsInvariant : Obligations.ResetMeetsInvariant :=
  ⟨fun hover => absurd hover Config.tSettle_pos.ne', Nat.le_refl Config.tSettle, nofun⟩

/-- Settles O36: the request issued at power-up is the next one, and the record before it is empty. -/
theorem firstRequestNeedsNoSetUp : Obligations.FirstRequestNeedsNoSetUp := fun q =>
  ⟨_, step_eq_next_afterStep (State.reset.issue q), State.afterStep_samples (State.reset.issue q)⟩

/-! ### The run of the host's sequence -/

theorem State.nextRequest_of_pending {s : State} {q : Request} {qs : List Request} (h : s.pending = q :: qs) :
    s.nextRequest = q := by
  rw [State.nextRequest, h, List.head?_cons, Option.getD_some]

/-- After as many steps as requests wait, none waits, and `F` of each has been sampled in its order (R79). -/
theorem State.iterate_afterStep_of_pending {qs : List Request} {s : State} (h : s.pending = qs) :
    (State.afterStep^[qs.length] s).pending = [] ∧
      (State.afterStep^[qs.length] s).samples = s.samples ++ qs.map blockF := by
  induction qs generalizing s with
  | nil => exact ⟨h, (List.append_nil s.samples).symm⟩
  | cons q qs ih =>
    have hrest : s.afterStep.pending = qs := by rw [State.afterStep_pending, h, List.tail_cons]
    obtain ⟨hpending, hsamples⟩ := ih hrest
    refine ⟨hpending, hsamples.trans ?_⟩
    rw [State.afterStep_samples, State.nextRequest_of_pending h, List.append_assoc]
    rfl

/-- Settles O34, by induction on the requests that wait. -/
theorem runSamplesEachRequest : Obligations.RunSamplesEachRequest := fun s =>
  ⟨_, core_run_eq_iterate s.pending.length s, State.iterate_afterStep_of_pending rfl⟩

/-! ### The window -/

theorem State.drive_windowBounded {s : State} (h : s.windowBounded) (q : Request) : (s.drive q).windowBounded := by
  by_cases hsame : s.request = q
  · rwa [← hsame, State.drive_same]
  · rw [State.drive_changed s q hsame]
    exact Nat.le_refl Config.tSettle

theorem State.presentNext_windowBounded {s : State} (h : s.windowBounded) : s.presentNext.windowBounded := by
  unfold State.presentNext
  split
  next => exact h
  next q qs _ => exact State.drive_windowBounded (s := { s with pending := qs }) h q

theorem State.tick_windowBounded {s : State} (h : s.windowBounded) : s.tick.windowBounded := by
  rw [State.windowBounded, State.tick_window]
  exact (Nat.sub_le s.window 1).trans h

/-! ### Settled outputs -/

/-- Changed inputs open a window, so only unchanged ones can be settled at once (R76; entries 6, 10). -/
theorem State.drive_settledOutputs {s : State} (h : s.settledOutputs) (q : Request) : (s.drive q).settledOutputs := by
  by_cases hsame : s.request = q
  · rwa [← hsame, State.drive_same]
  · rw [State.drive_changed s q hsame]
    exact fun hover => absurd hover Config.tSettle_pos.ne'

/-- Time that ends the window puts `F` of the inputs on the outputs, whatever they showed before (R75). -/
theorem State.tick_settledOutputs (s : State) : s.tick.settledOutputs := by
  intro hover
  have hlast : s.window ≤ 1 := by
    rw [State.tick_window] at hover
    omega
  rw [State.tick_request, State.tick_last s hlast, State.answer_outputs]

/-- Settles O41: driving and time have their rules above; sampling and issuing touch neither the ports nor the window. -/
theorem hostActionsKeepSettledOutputs : Obligations.HostActionsKeepSettledOutputs := by
  intro s x hsettled hbounded
  cases x with
  | drive q => exact ⟨State.drive_settledOutputs hsettled q, State.drive_windowBounded hbounded q⟩
  | tick => exact ⟨s.tick_settledOutputs, State.tick_windowBounded hbounded⟩
  | sample => exact ⟨hsettled, hbounded⟩
  | issue q => exact ⟨hsettled, hbounded⟩

/-! ### States that differ in the counter of free values only -/

theorem SameButDraws.trans {s t u : State} (hst : SameButDraws s t) (htu : SameButDraws t u) : SameButDraws s u := by
  rw [SameButDraws, ← htu, ← hst]

theorem SameButDraws.outputs_eq {s t : State} (h : SameButDraws s t) : s.outputs = t.outputs := by
  rw [← h]
  rfl

theorem SameButDraws.sample {s t : State} (h : SameButDraws s t) : SameButDraws s.sample t.sample := by
  rw [← h]
  rfl

/-! ### Inputs held until the window is over -/

/-- A unit of time changes only what an answer settles, and the counter. -/
theorem sameButDraws_tick_answer (s : State) (x : Response) : SameButDraws (s.tick.answer x) (s.answer x) := by
  unfold State.tick
  split <;> rfl

/-- Inputs held for the whole window, and for one unit of time at least, are answered `F` (R75). -/
theorem State.hold_settles {n : Nat} {s : State} (h : s.window ≤ n + 1) :
    SameButDraws (State.hold (n + 1) s) (s.answer (blockF s.request)) := by
  induction n generalizing s with
  | zero =>
    rw [State.hold, State.hold, State.tick_last s h]
    rfl
  | succ n ih =>
    have hrest : s.tick.window ≤ n + 1 := by
      rw [State.tick_window]
      omega
    have hheld := ih hrest
    rw [State.tick_request] at hheld
    exact hheld.trans (sameButDraws_tick_answer s _)

/-- `T_SETTLE` is long enough for every window that it bounds (R75; entry 6). -/
theorem State.hold_settles_of_tSettle_le {n : Nat} {s : State} (hbounded : s.windowBounded) (hn : Config.tSettle ≤ n) :
    SameButDraws (State.hold n s) (s.answer (blockF s.request)) := by
  obtain ⟨m, rfl⟩ := Nat.exists_eq_add_one.mpr (Config.tSettle_pos.trans_le hn)
  exact State.hold_settles (hbounded.trans hn)

/-- Settles O38: presenting keeps the window bounded, so both the held inputs and the step come to `F` of the same request. -/
theorem stepIsARequestHeldLongEnough : Obligations.StepIsARequestHeldLongEnough := fun s _ hbounded hn =>
  ⟨_, step_eq s, (State.hold_settles_of_tSettle_le (State.presentNext_windowBounded hbounded) hn).sample⟩

/-! ### Inputs held for less -/

/-- The outputs show the free value that was drawn last, the `d`-th one (entry 5). -/
def State.ShowsDraw (s : State) (d : Nat) : Prop :=
  s.outputs = ⟨Config.unsettledR d, Config.unsettledSt d⟩ ∧ s.draws = d + 1

/-- Each unit of time inside the window draws the next free value (R75; entry 5). -/
theorem State.hold_showsDraw {n d : Nat} {s : State} (h : s.ShowsDraw d) (hn : n < s.window) :
    (State.hold n s).ShowsDraw (d + n) := by
  induction n generalizing s d with
  | zero => exact h
  | succ n ih =>
    have hnext : s.tick.ShowsDraw (d + 1) := by
      rw [State.tick_inside s (by omega), ← h.2]
      exact ⟨rfl, rfl⟩
    have hrest : n < s.tick.window := by
      rw [State.tick_window]
      omega
    rw [← Nat.add_assoc, Nat.add_right_comm]
    exact ih hnext hrest

/-- Changed inputs held for less than `T_SETTLE` show a free value (R75; entries 5, 10). -/
theorem State.hold_drive_showsDraw {n : Nat} {s : State} {q : Request} (hchanged : s.request ≠ q) (hn : n < Config.tSettle) :
    (State.hold n (s.drive q)).ShowsDraw (s.draws + n) := by
  rw [State.drive_changed s q hchanged]
  exact State.hold_showsDraw ⟨rfl, rfl⟩ hn

/-- Settles O37: held for `T_SETTLE` the driven inputs are answered, and a shorter hold ends inside the window. -/
theorem outputsSettleAfterTheWindow : Obligations.OutputsSettleAfterTheWindow := by
  intro s q n hbounded
  refine ⟨fun hn => ?_, fun hn hchanged => (State.hold_drive_showsDraw hchanged hn).1⟩
  rw [(State.hold_settles_of_tSettle_le (State.drive_windowBounded hbounded q) hn).outputs_eq, State.answer_outputs,
    State.drive_request]

end Sys2Proof.Machine
end
